-- ==== Sys2Proof/Word.lean ====
section
/-!
DEFINITION. The word types of chip8_cpu_engine (spec/00_scope.md R9, R12): every register, memory byte,
timer and address is an unsigned integer of its stated width.
-/

namespace Sys2Proof

/-- 8 bits: a general register, a timer, a memory byte, an immediate (R9: V_WIDTH, TIMER_WIDTH). -/
abbrev Byte := BitVec 8

/-- 16 bits: an opcode word, I, PC, a stack slot (R9: I_WIDTH, PC_WIDTH, STACK_SLOT_WIDTH). -/
abbrev Word := BitVec 16

/-- A 4-bit field of an opcode word (R102). -/
abbrev Nibble := BitVec 4

/-- The 4-bit index of a general register V0..VF (R31). -/
abbrev Reg := BitVec 4

/-- The 12-bit address field of an opcode word (R102). -/
abbrev Addr := BitVec 12

end Sys2Proof
end

