-- ==== Sys2Proof/Config.lean ====
section
/-!
DEFINITION. What an implementation of chip8_cpu_engine fixes: the named parameters of spec/00_scope.md R9,
the quirk configuration (spec/10_state.md R45), the font (spec/20_memory.md R80), and the free values: the
construction arguments the spec leaves without a default and the step inputs no host has supplied.
-/

namespace Sys2Proof

/-- MEM_SIZE (R9): addresses 0x000..0xFFF. -/
@[simp] abbrev Config.memSize : Nat := 4096

/-- NUM_V (R9): V0..VF. -/
@[simp] abbrev Config.numV : Nat := 16

/-- STACK_DEPTH (R9): the slots of the call stack; SP ranges over 0..STACK_DEPTH. -/
@[simp] abbrev Config.stackDepth : Nat := 16

/-- NUM_KEYS (R9): keys 0x0..0xF. -/
@[simp] abbrev Config.numKeys : Nat := 16

/-- PROGRAM_BASE (R9, R352): where a program is loaded. -/
@[simp] abbrev Config.programBase : Nat := 0x200

/-- MAX_PROGRAM (R9): 0x1000 - 0x200 bytes. -/
@[simp] abbrev Config.maxProgram : Nat := 3584

/-- PC_RESET (R9, R52). -/
@[simp] abbrev Config.pcReset : Word := 0x200

/-- INSN_BYTES (R9, R100). -/
@[simp] abbrev Config.insnBytes : Word := 2

/-- FONT_BASE (R9): where the font starts. -/
@[simp] abbrev Config.fontBase : Nat := 0x000

/-- GLYPH_BYTES (R9): the font's bytes per glyph. -/
@[simp] abbrev Config.glyphBytes : Nat := 5

/-- FONT_BYTES (R9): the font occupies 0x000..0x04F. -/
@[simp] abbrev Config.fontBytes : Nat := 80

/-- FB_WIDTH (R9). -/
@[simp] abbrev Config.fbWidth : Nat := 64

/-- FB_HEIGHT (R9). -/
@[simp] abbrev Config.fbHeight : Nat := 32

/-- I_FLAG_THRESHOLD (R9, R233). -/
@[simp] abbrev Config.iFlagThreshold : Word := 0x0F00

/-- The six quirk switches (R45), fixed at construction; the last two are inert (R47). -/
structure Quirks where
  /-- Q_VF_RESET: OR, AND and XOR then write VF <- 0 (R164 to R166). -/
  vfReset : Bool
  /-- Q_INDEX_INCREMENT: the block transfers then advance I by x + 1 (R236, R237). -/
  indexIncrement : Bool
  /-- Q_SHIFT_USES_VX: SHR and SHL shift V[x], else V[y] (R169, R171). -/
  shiftUsesVx : Bool
  /-- Q_JUMP_USES_VX: JP V0,nnn adds V[addr[11:8]], else V[0] (R207). -/
  jumpUsesVx : Bool
  /-- Q_CLIPPING: present, readable, without effect (R47, R264). -/
  clipping : Bool
  /-- Q_DISPLAY_WAIT: present, readable, without effect (R47, R264). -/
  displayWait : Bool
  deriving DecidableEq, Repr, Inhabited

/-- The configuration read-out of R45: switch k of its table at bit k. -/
def Quirks.bits (q : Quirks) : BitVec 6 :=
  BitVec.ofBool q.displayWait ++ BitVec.ofBool q.clipping ++ BitVec.ofBool q.jumpUsesVx ++
    BitVec.ofBool q.shiftUsesVx ++ BitVec.ofBool q.indexIncrement ++ BitVec.ofBool q.vfReset

/-- FONT[5..79] (R80): the bytes of glyphs 1..F, a parameter of the machine (decision D21). -/
abbrev Font := Vector Byte (Config.fontBytes - Config.glyphBytes)

/-- FONT[0..4] (R80): glyph 0, the one glyph the source fixes. -/
def Config.glyphZero : Vector Byte Config.glyphBytes := #v[0xF0, 0x90, 0x90, 0x90, 0xF0]

/-- The customary CHIP-8 glyphs 1..F, the default R80 gives for the parameter FONT.  Nothing in the machine
uses it: reset takes `Config.font`, and a run that wants these bytes is constructed with them (log 6). -/
def Config.customaryFont : Font := #v[
  0x20, 0x60, 0x20, 0x20, 0x70,  0xF0, 0x10, 0xF0, 0x80, 0xF0,  0xF0, 0x10, 0xF0, 0x10, 0xF0,
  0x90, 0x90, 0xF0, 0x10, 0x10,  0xF0, 0x80, 0xF0, 0x10, 0xF0,  0xF0, 0x80, 0xF0, 0x90, 0xF0,
  0xF0, 0x10, 0x20, 0x40, 0x40,  0xF0, 0x90, 0xF0, 0x90, 0xF0,  0xF0, 0x90, 0xF0, 0x10, 0xF0,
  0xF0, 0x90, 0xF0, 0x90, 0x90,  0xE0, 0x90, 0xE0, 0x90, 0xE0,  0xF0, 0x80, 0x80, 0x80, 0xF0,
  0xE0, 0x90, 0x90, 0x90, 0xE0,  0xF0, 0x80, 0xF0, 0x80, 0xF0,  0xF0, 0x80, 0xF0, 0x80, 0x80]

/-- The quirk configuration reset is constructed with: a parameter with no default (R46, D34; log 5). -/
opaque Config.quirks : Quirks

/-- The font reset is constructed with: a parameter (R10, R80, D21; log 6). -/
opaque Config.font : Font

/-- The key vector of the n-th step input, where the host has supplied none: a free value (R63; log 3). -/
opaque Config.freeKeys : Nat → BitVec Config.numKeys

/-- The random byte of the n-th step input, where the host has supplied none: a free value (R63, D22; log 3). -/
opaque Config.freeRnd : Nat → Byte

end Sys2Proof
end

