-- ==== Sys2Proof/Syntax.lean ====
section
/-!
DEFINITION. The instructions of chip8_cpu_engine: one constructor per row of spec/opcode_table.json, in the
order of spec/30_encoding.md R108, each carrying the fields its rule reads (R115).
CLS, RET and SYS carry the bits their rules ignore too, so that the opcode a fault record holds (R310) is the
word of the instruction itself (log 7).
-/

namespace Sys2Proof

/-- The 35 rows of R108.  `u` is an ignored nibble (bits 11:8 of CLS and RET, R112). -/
inductive Instr where
  /-- Row 1, `CLS` (0?E0), R260. -/
  | cls (u : Nibble)
  /-- Row 2, `RET` (0?EE), R201. -/
  | ret (u : Nibble)
  /-- Row 3, `SYS nnn` (0nnn with imm neither 0xE0 nor 0xEE), R203. -/
  | sys (addr : Addr)
  /-- Row 4, `JP nnn` (1nnn), R205. -/
  | jp (addr : Addr)
  /-- Row 5, `CALL nnn` (2nnn), R202. -/
  | call (addr : Addr)
  /-- Row 6, `SE Vx, kk` (3xkk), R210. -/
  | seImm (x : Reg) (imm : Byte)
  /-- Row 7, `SNE Vx, kk` (4xkk), R211. -/
  | sneImm (x : Reg) (imm : Byte)
  /-- Row 8, `SE Vx, Vy` (5xy0), R212. -/
  | seReg (x y : Reg)
  /-- Row 9, `LD Vx, kk` (6xkk), R161. -/
  | ldImm (x : Reg) (imm : Byte)
  /-- Row 10, `ADD Vx, kk` (7xkk), R162. -/
  | addImm (x : Reg) (imm : Byte)
  /-- Row 11, `LD Vx, Vy` (8xy0), R163. -/
  | ldReg (x y : Reg)
  /-- Row 12, `OR Vx, Vy` (8xy1), R164. -/
  | orReg (x y : Reg)
  /-- Row 13, `AND Vx, Vy` (8xy2), R165. -/
  | andReg (x y : Reg)
  /-- Row 14, `XOR Vx, Vy` (8xy3), R166. -/
  | xorReg (x y : Reg)
  /-- Row 15, `ADD Vx, Vy` (8xy4), R167. -/
  | addReg (x y : Reg)
  /-- Row 16, `SUB Vx, Vy` (8xy5), R168. -/
  | subReg (x y : Reg)
  /-- Row 17, `SHR Vx, Vy` (8xy6), R169. -/
  | shr (x y : Reg)
  /-- Row 18, `SUBN Vx, Vy` (8xy7), R170. -/
  | subnReg (x y : Reg)
  /-- Row 19, `SHL Vx, Vy` (8xyE), R171. -/
  | shl (x y : Reg)
  /-- Row 20, `SNE Vx, Vy` (9xy0), R213. -/
  | sneReg (x y : Reg)
  /-- Row 21, `LD I, nnn` (Annn), R230. -/
  | ldI (addr : Addr)
  /-- Row 22, `JP V0, nnn` (Bnnn), R207. -/
  | jpV0 (addr : Addr)
  /-- Row 23, `RND Vx, kk` (Cxkk), R288. -/
  | rnd (x : Reg) (imm : Byte)
  /-- Row 24, `DRW Vx, Vy, n` (Dxyn), R262. -/
  | drw (x y : Reg) (n : Nibble)
  /-- Row 25, `SKP Vx` (Ex9E), R286. -/
  | skp (x : Reg)
  /-- Row 26, `SKNP Vx` (ExA1), R287. -/
  | sknp (x : Reg)
  /-- Row 27, `LD Vx, DT` (Fx07), R280. -/
  | ldVxDt (x : Reg)
  /-- Row 28, `LD Vx, K` (Fx0A), R285. -/
  | ldVxK (x : Reg)
  /-- Row 29, `LD DT, Vx` (Fx15), R281. -/
  | ldDtVx (x : Reg)
  /-- Row 30, `LD ST, Vx` (Fx18), R282. -/
  | ldStVx (x : Reg)
  /-- Row 31, `ADD I, Vx` (Fx1E), R233. -/
  | addI (x : Reg)
  /-- Row 32, `LD F, Vx` (Fx29), R234. -/
  | ldF (x : Reg)
  /-- Row 33, `LD B, Vx` (Fx33), R235. -/
  | ldB (x : Reg)
  /-- Row 34, `LD [I], Vx` (Fx55), R236. -/
  | store (x : Reg)
  /-- Row 35, `LD Vx, [I]` (Fx65), R237. -/
  | load (x : Reg)
  deriving DecidableEq, Repr

/-- The row of R108 an instruction belongs to. -/
def Instr.row : Instr → Nat
  | .cls _ => 1 | .ret _ => 2 | .sys _ => 3 | .jp _ => 4 | .call _ => 5
  | .seImm _ _ => 6 | .sneImm _ _ => 7 | .seReg _ _ => 8 | .ldImm _ _ => 9 | .addImm _ _ => 10
  | .ldReg _ _ => 11 | .orReg _ _ => 12 | .andReg _ _ => 13 | .xorReg _ _ => 14 | .addReg _ _ => 15
  | .subReg _ _ => 16 | .shr _ _ => 17 | .subnReg _ _ => 18 | .shl _ _ => 19 | .sneReg _ _ => 20
  | .ldI _ => 21 | .jpV0 _ => 22 | .rnd _ _ => 23 | .drw _ _ _ => 24 | .skp _ => 25 | .sknp _ => 26
  | .ldVxDt _ => 27 | .ldVxK _ => 28 | .ldDtVx _ => 29 | .ldStVx _ => 30 | .addI _ => 31
  | .ldF _ => 32 | .ldB _ => 33 | .store _ => 34 | .load _ => 35

end Sys2Proof
end

