-- ==== Sys2Proof/WellFormed.lean ====
section
/-!
DEFINITION. Which instruction terms stand for a word.  Every field has exactly the width its encoding gives it
(spec/30_encoding.md R102), so the one check left is that of the SYS row: its words are the family-0x0 words
whose imm selects neither CLS nor RET (R107, R109).
-/

namespace Sys2Proof

/-- The immediate field of an address field: bits 7:0 (R102). -/
def addrImm (a : Addr) : Byte := a.extractLsb' 0 8

/-- A SYS address field may not read as CLS or RET (R107: those rows come before SYS). -/
def Instr.wf : Instr → Bool
  | .sys a => addrImm a != 0xE0 && addrImm a != 0xEE
  | .cls _ | .ret _ | .jp _ | .call _ | .seImm _ _ | .sneImm _ _ | .seReg _ _ | .ldImm _ _ | .addImm _ _
  | .ldReg _ _ | .orReg _ _ | .andReg _ _ | .xorReg _ _ | .addReg _ _ | .subReg _ _ | .shr _ _
  | .subnReg _ _ | .shl _ _ | .sneReg _ _ | .ldI _ | .jpV0 _ | .rnd _ _ | .drw _ _ _ | .skp _ | .sknp _
  | .ldVxDt _ | .ldVxK _ | .ldDtVx _ | .ldStVx _ | .addI _ | .ldF _ | .ldB _ | .store _ | .load _ => true

end Sys2Proof
end

