-- ==== Sys2Proof/Decode.lean ====
section
/-!
DEFINITION. opcode_decoder (spec/30_encoding.md): field extraction (R104), the opcode map (R108), classification
by the first matching row (R107), the two-level dispatch of R106, the decoder over bytes, and the encoder.
-/

namespace Sys2Proof

/-- Big-endian composition of an instruction word (R76, R101): `hi` is the byte at the lower address. -/
def beWord (hi lo : Byte) : Word := hi ++ lo

/-- The byte of an instruction word that lies at the lower address (R101: `op[15:8]`). -/
def hiByte (op : Word) : Byte := op.extractLsb' 8 8

/-- The byte of an instruction word that lies at the higher address. -/
def loByte (op : Word) : Byte := op.extractLsb' 0 8

/-- The fields the decoder extracts from every word (R102, R103). -/
structure Fields where
  family : Nibble
  addr : Addr
  x : Reg
  y : Reg
  nib : Nibble
  imm : Byte
  deriving DecidableEq, Repr

/-- Field extraction, exactly as R104 has it: pure, with no validation (R103). -/
def fields (op : Word) : Fields where
  family := op.extractLsb' 12 4
  addr := op.extractLsb' 0 12
  x := op.extractLsb' 8 4
  y := op.extractLsb' 4 4
  nib := op.extractLsb' 0 4
  imm := op.extractLsb' 0 8

/-- A row of the opcode map (R108): its number, mask, match and the instruction its fields give. -/
structure OpRow where
  order : Nat
  mask : Word
  mtch : Word
  build : Fields → Instr

/-- Rows 1 to 10 of R108. -/
def opcodeMapA : List OpRow := [
  ⟨1, 0xF0FF, 0x00E0, fun f => .cls f.x⟩,
  ⟨2, 0xF0FF, 0x00EE, fun f => .ret f.x⟩,
  ⟨3, 0xF000, 0x0000, fun f => .sys f.addr⟩,
  ⟨4, 0xF000, 0x1000, fun f => .jp f.addr⟩,
  ⟨5, 0xF000, 0x2000, fun f => .call f.addr⟩,
  ⟨6, 0xF000, 0x3000, fun f => .seImm f.x f.imm⟩,
  ⟨7, 0xF000, 0x4000, fun f => .sneImm f.x f.imm⟩,
  ⟨8, 0xF00F, 0x5000, fun f => .seReg f.x f.y⟩,
  ⟨9, 0xF000, 0x6000, fun f => .ldImm f.x f.imm⟩,
  ⟨10, 0xF000, 0x7000, fun f => .addImm f.x f.imm⟩]

/-- Rows 11 to 20 of R108. -/
def opcodeMapB : List OpRow := [
  ⟨11, 0xF00F, 0x8000, fun f => .ldReg f.x f.y⟩,
  ⟨12, 0xF00F, 0x8001, fun f => .orReg f.x f.y⟩,
  ⟨13, 0xF00F, 0x8002, fun f => .andReg f.x f.y⟩,
  ⟨14, 0xF00F, 0x8003, fun f => .xorReg f.x f.y⟩,
  ⟨15, 0xF00F, 0x8004, fun f => .addReg f.x f.y⟩,
  ⟨16, 0xF00F, 0x8005, fun f => .subReg f.x f.y⟩,
  ⟨17, 0xF00F, 0x8006, fun f => .shr f.x f.y⟩,
  ⟨18, 0xF00F, 0x8007, fun f => .subnReg f.x f.y⟩,
  ⟨19, 0xF00F, 0x800E, fun f => .shl f.x f.y⟩,
  ⟨20, 0xF00F, 0x9000, fun f => .sneReg f.x f.y⟩]

/-- Rows 21 to 35 of R108. -/
def opcodeMapC : List OpRow := [
  ⟨21, 0xF000, 0xA000, fun f => .ldI f.addr⟩,
  ⟨22, 0xF000, 0xB000, fun f => .jpV0 f.addr⟩,
  ⟨23, 0xF000, 0xC000, fun f => .rnd f.x f.imm⟩,
  ⟨24, 0xF000, 0xD000, fun f => .drw f.x f.y f.nib⟩,
  ⟨25, 0xF0FF, 0xE09E, fun f => .skp f.x⟩,
  ⟨26, 0xF0FF, 0xE0A1, fun f => .sknp f.x⟩,
  ⟨27, 0xF0FF, 0xF007, fun f => .ldVxDt f.x⟩,
  ⟨28, 0xF0FF, 0xF00A, fun f => .ldVxK f.x⟩,
  ⟨29, 0xF0FF, 0xF015, fun f => .ldDtVx f.x⟩,
  ⟨30, 0xF0FF, 0xF018, fun f => .ldStVx f.x⟩,
  ⟨31, 0xF0FF, 0xF01E, fun f => .addI f.x⟩,
  ⟨32, 0xF0FF, 0xF029, fun f => .ldF f.x⟩,
  ⟨33, 0xF0FF, 0xF033, fun f => .ldB f.x⟩,
  ⟨34, 0xF0FF, 0xF055, fun f => .store f.x⟩,
  ⟨35, 0xF0FF, 0xF065, fun f => .load f.x⟩]

/-- The opcode map of R108, in its order. -/
def opcodeMap : List OpRow := opcodeMapA ++ opcodeMapB ++ opcodeMapC

/-- A word matches a row when `(op & mask) = match` (R107). -/
def OpRow.hits (r : OpRow) (op : Word) : Bool := op &&& r.mask == r.mtch

/-- Why the decoder rejects bytes. -/
inductive Reject where
  /-- Fewer than two bytes: no instruction word (R100). -/
  | truncated
  /-- A word of a recognized family that matches no row: INVALID (R107, R109). -/
  | invalid (op : Word)
  /-- A word whose family no row has (R110); no word of this hardware. -/
  | unknownFamily (op : Word)
  deriving DecidableEq, Repr

/-- A family is recognized when some row of R108 belongs to it (R106, R110). -/
def recognizedFamily (family : Nibble) : Bool :=
  opcodeMap.any fun r => r.mtch.extractLsb' 12 4 == family

/-- Classification (R107): the instruction of the first row that matches, or INVALID. -/
def classify (op : Word) : Except Reject Instr :=
  match opcodeMap.find? (fun r => r.hits op) with
  | some r => .ok (r.build (fields op))
  | none => if recognizedFamily (fields op).family then .error (.invalid op) else .error (.unknownFamily op)

/-- The secondary dispatch of family 0x0, on imm (R106). -/
def dispatchFamily0 (f : Fields) : Option Instr :=
  if f.imm = 0xE0 then some (.cls f.x) else if f.imm = 0xEE then some (.ret f.x) else some (.sys f.addr)

/-- The secondary dispatch of family 0x8, on nib (R106). -/
def dispatchFamily8 (f : Fields) : Option Instr :=
  match f.nib.toNat with
  | 0x0 => some (.ldReg f.x f.y)
  | 0x1 => some (.orReg f.x f.y)
  | 0x2 => some (.andReg f.x f.y)
  | 0x3 => some (.xorReg f.x f.y)
  | 0x4 => some (.addReg f.x f.y)
  | 0x5 => some (.subReg f.x f.y)
  | 0x6 => some (.shr f.x f.y)
  | 0x7 => some (.subnReg f.x f.y)
  | 0xE => some (.shl f.x f.y)
  | _ => none

/-- The secondary dispatch of family 0xE, on imm (R106). -/
def dispatchFamilyE (f : Fields) : Option Instr :=
  if f.imm = 0x9E then some (.skp f.x) else if f.imm = 0xA1 then some (.sknp f.x) else none

/-- The secondary dispatch of family 0xF, on imm (R106). -/
def dispatchFamilyF (f : Fields) : Option Instr :=
  match f.imm.toNat with
  | 0x07 => some (.ldVxDt f.x)
  | 0x0A => some (.ldVxK f.x)
  | 0x15 => some (.ldDtVx f.x)
  | 0x18 => some (.ldStVx f.x)
  | 0x1E => some (.addI f.x)
  | 0x29 => some (.ldF f.x)
  | 0x33 => some (.ldB f.x)
  | 0x55 => some (.store f.x)
  | 0x65 => some (.load f.x)
  | _ => none

/-- The two-level dispatch of R106: the top nibble selects a family, some families dispatch once more. -/
def dispatch (f : Fields) : Option Instr :=
  match f.family.toNat with
  | 0x0 => dispatchFamily0 f
  | 0x1 => some (.jp f.addr)
  | 0x2 => some (.call f.addr)
  | 0x3 => some (.seImm f.x f.imm)
  | 0x4 => some (.sneImm f.x f.imm)
  | 0x5 => if f.nib = 0 then some (.seReg f.x f.y) else none
  | 0x6 => some (.ldImm f.x f.imm)
  | 0x7 => some (.addImm f.x f.imm)
  | 0x8 => dispatchFamily8 f
  | 0x9 => if f.nib = 0 then some (.sneReg f.x f.y) else none
  | 0xA => some (.ldI f.addr)
  | 0xB => some (.jpV0 f.addr)
  | 0xC => some (.rnd f.x f.imm)
  | 0xD => some (.drw f.x f.y f.nib)
  | 0xE => dispatchFamilyE f
  | 0xF => dispatchFamilyF f
  | _ => none

/-- The decoder over bytes, total: two bytes, the first at the lower address (R100, R101), and the rest. -/
def decode : List Byte → Except Reject (Instr × List Byte)
  | hi :: lo :: rest => (classify (beWord hi lo)).map fun i => (i, rest)
  | [_] => .error .truncated
  | [] => .error .truncated

/-- The encoder: the word of a well-formed instruction, from the patterns of R108. -/
def encode : Instr → Word
  | .cls u => 0x0#4 ++ u ++ 0xE0#8
  | .ret u => 0x0#4 ++ u ++ 0xEE#8
  | .sys a => 0x0#4 ++ a
  | .jp a => 0x1#4 ++ a
  | .call a => 0x2#4 ++ a
  | .seImm x k => 0x3#4 ++ x ++ k
  | .sneImm x k => 0x4#4 ++ x ++ k
  | .seReg x y => 0x5#4 ++ x ++ y ++ 0x0#4
  | .ldImm x k => 0x6#4 ++ x ++ k
  | .addImm x k => 0x7#4 ++ x ++ k
  | .ldReg x y => 0x8#4 ++ x ++ y ++ 0x0#4
  | .orReg x y => 0x8#4 ++ x ++ y ++ 0x1#4
  | .andReg x y => 0x8#4 ++ x ++ y ++ 0x2#4
  | .xorReg x y => 0x8#4 ++ x ++ y ++ 0x3#4
  | .addReg x y => 0x8#4 ++ x ++ y ++ 0x4#4
  | .subReg x y => 0x8#4 ++ x ++ y ++ 0x5#4
  | .shr x y => 0x8#4 ++ x ++ y ++ 0x6#4
  | .subnReg x y => 0x8#4 ++ x ++ y ++ 0x7#4
  | .shl x y => 0x8#4 ++ x ++ y ++ 0xE#4
  | .sneReg x y => 0x9#4 ++ x ++ y ++ 0x0#4
  | .ldI a => 0xA#4 ++ a
  | .jpV0 a => 0xB#4 ++ a
  | .rnd x k => 0xC#4 ++ x ++ k
  | .drw x y n => 0xD#4 ++ x ++ y ++ n
  | .skp x => 0xE#4 ++ x ++ 0x9E#8
  | .sknp x => 0xE#4 ++ x ++ 0xA1#8
  | .ldVxDt x => 0xF#4 ++ x ++ 0x07#8
  | .ldVxK x => 0xF#4 ++ x ++ 0x0A#8
  | .ldDtVx x => 0xF#4 ++ x ++ 0x15#8
  | .ldStVx x => 0xF#4 ++ x ++ 0x18#8
  | .addI x => 0xF#4 ++ x ++ 0x1E#8
  | .ldF x => 0xF#4 ++ x ++ 0x29#8
  | .ldB x => 0xF#4 ++ x ++ 0x33#8
  | .store x => 0xF#4 ++ x ++ 0x55#8
  | .load x => 0xF#4 ++ x ++ 0x65#8

/-- The two bytes of an instruction as they lie in memory (R101). -/
def encodeBytes (i : Instr) : List Byte := [hiByte (encode i), loByte (encode i)]

/-- The word of which the low `nbits` bits are given and the others are 0. -/
def tableWord (nbits w : Nat) : Word := BitVec.ofNat 16 (w % 2 ^ nbits)

/-- The instruction the decoder reads from a table row's word: its bytes laid out big-endian, then `decode`. -/
def decodeTableWord (nbits w : Nat) : Option Instr :=
  match decode [hiByte (tableWord nbits w), loByte (tableWord nbits w)] with
  | .ok (i, _) => some i
  | .error _ => none

end Sys2Proof
end

