-- ==== Sys2Proof/Machine/State.lean ====
section
/-!
DEFINITION. The state of chip8_cpu_engine (spec/10_state.md R30): every piece the spec gives the machine, the two
construction parameters (QUIRKS, FONT), and the model's own record of the step inputs (log 3, 4).
-/

namespace Sys2Proof.Machine

/-- MEM (R44, R70) as (address, byte) pairs in one canonical form: addresses strictly rising, and no entry equal to
what an unlisted address reads as (`Memory.wf`, Machine/Memory.lean). -/
abbrev Memory := List Host.Cell

/-- V0..VF (R31). -/
abbrev RegFile := Vector Byte Config.numV

/-- STACK[0..15] (R37). -/
abbrev CallStack := Vector Word Config.stackDepth

/-- FB (R41): `FB[y][x]` is `fb[y][x]`, 32 rows of 64 columns. -/
abbrev Framebuffer := Vector (Vector Bool Config.fbWidth) Config.fbHeight

/-- STATUS (R48). -/
inductive Status where
  /-- Steps execute. -/
  | running
  /-- A fatal error occurred; no later step changes any state. -/
  | faulted
  /-- A load was rejected; execution must not start. -/
  | loadFailed
  deriving DecidableEq, Repr

/-- The record FAULT holds (R48, R310), one constructor per code with the fields that code records.
`opcode` and `pc` are the raw word and pc0 of the faulting step (R143, R315). -/
inductive FaultRecord where
  /-- Code 1, raised by load_program (R317): the length of the rejected program. -/
  | loadTooLarge (length : Nat)
  /-- Code 2, raised by classification and by SYS (R311). -/
  | invalidInstruction (opcode pc : Word)
  /-- Code 3, raised by CALL when SP = 16 (R313). -/
  | stackOverflow (opcode pc : Word)
  /-- Code 4, raised by RET when SP = 0 (R314). -/
  | stackUnderflow (opcode pc : Word)
  /-- Code 5, raised by the fetch (opcode none), DRW, LD B, LD [I] and LD Vx,[I] (R312): `addr` is the first
  address of the range that is out of bounds. -/
  | addressOutOfBounds (opcode : Option Word) (pc addr : Word)
  /-- Code 6, raised by SKP and SKNP (R316): `value` is V[x]. -/
  | invalidKeyIndex (opcode pc : Word) (value : Byte)
  deriving DecidableEq, Repr

/-- The inputs of one step transaction (R63): the key vector, bit k set when key k is held, and the random byte. -/
structure StepInput where
  keys : BitVec Config.numKeys
  rnd : Byte
  deriving DecidableEq, Repr

/-- Why a step stops the machine. -/
inductive Fault where
  /-- Raised by `step` when STATUS is FAULTED: the engine is stuck, no step is enabled (R150, D33).  Safe: the
  machine makes no move, so no claim about a next state can rest on it. -/
  | stuckFaulted
  /-- Raised by `step` when STATUS is LOAD_FAILED: execution must not start (R150, D33).  Safe, likewise. -/
  | stuckLoadFailed
  deriving DecidableEq, Repr

/-- Why a transaction is refused. -/
inductive Refusal where
  /-- Raised by an arm of `exec` whose instruction has no meaning yet.  Safe. -/
  | notModelled (mnemonic : String)
  /-- Raised by `loadProgram` when STATUS is not RUNNING or STARTED is 1: the machine has no such move (R352, D23).
  Safe for hosts that load before the first step; says nothing of a host that does not (R368). -/
  | loadNotAccepted
  deriving DecidableEq, Repr

/-- The complete state (R30). -/
structure State where
  /-- MEM, 4096 × 8 bits (R70). -/
  mem : Memory
  /-- FONT[5..79], the construction parameter of R10 and R80: never changes. -/
  font : Font
  /-- V[0..15] (R31); VF is V[15] (R32). -/
  v : RegFile
  /-- I (R33). -/
  i : Word
  /-- PC (R34). -/
  pc : Word
  /-- STACK[0..15] (R37). -/
  stack : CallStack
  /-- SP, an integer 0..16 (R38). -/
  sp : Fin (Config.stackDepth + 1)
  /-- DT (R39). -/
  dt : Byte
  /-- ST (R40). -/
  st : Byte
  /-- FB[0..31][0..63] (R41). -/
  fb : Framebuffer
  /-- KEYS[0..15], bit k for key k (R42). -/
  keys : BitVec Config.numKeys
  /-- REDRAW (R43). -/
  redraw : Bool
  /-- STATUS (R48). -/
  status : Status
  /-- FAULT (R48). -/
  fault : Option FaultRecord
  /-- STARTED (R49). -/
  started : Bool
  /-- QUIRKS, the construction parameter of R45 and R46: never changes. -/
  quirks : Quirks
  /-- The model's own: the random input of the step being executed (R63; log 4). -/
  rnd : Byte
  /-- The model's own: the step inputs the host has supplied and no step has taken, oldest first (R63; log 3). -/
  inputs : List StepInput
  /-- The model's own: how many step inputs have been taken (log 3). -/
  inputNo : Nat
  deriving DecidableEq, Repr

/-- The construct transaction (R61): all state at the values of R52, with the quirk configuration and the font that
construction is given.  MEM lists nothing: an unlisted address reads as its value after construction (log 9). -/
def State.construct (quirks : Quirks) (font : Font) : State where
  mem := []
  font := font
  v := Vector.replicate Config.numV 0
  i := 0
  pc := Config.pcReset
  stack := Vector.replicate Config.stackDepth 0
  sp := 0
  dt := 0
  st := 0
  fb := Vector.replicate Config.fbHeight (Vector.replicate Config.fbWidth false)
  keys := 0
  redraw := false
  status := .running
  fault := none
  started := false
  quirks := quirks
  rnd := 0
  inputs := []
  inputNo := 0

/-- The machine right after reset: construction with the machine's own parameters (R52, R350). -/
def State.reset : State := State.construct Config.quirks Config.font

end Sys2Proof.Machine
end

