-- ==== Sys2Proof/Machine/Memory.lean ====
section
/-!
DEFINITION. MEM and its primitives (spec/20_memory.md): what an unlisted address reads as, the byte at an address,
writing a byte, the canonical form, the bound of R73, MemRead and MemWrite.
-/

namespace Sys2Proof.Machine

/-- What an address that memory does not list reads as: its content after construction (R52, R71, R80): glyph 0,
the font parameter, then zero. -/
def unlistedByte (font : Font) (a : Nat) : Byte :=
  if a < Config.fontBase then 0
  else if a < Config.fontBase + Config.glyphBytes then Config.glyphZero.toList.getD (a - Config.fontBase) 0
  else if a < Config.fontBase + Config.fontBytes then
    font.toList.getD (a - (Config.fontBase + Config.glyphBytes)) 0
  else 0

/-- MEM[a] (R70, R79: a read returns the stored byte and changes nothing). -/
def memByte (font : Font) : Memory → Nat → Byte
  | [], a => unlistedByte font a
  | (k, c) :: m, a => if a = k then c else memByte font m a

/-- MEM[a] <- b, kept canonical: rising addresses, and writing what an unlisted address reads as removes the entry. -/
def memSet (font : Font) : Memory → Nat → Byte → Memory
  | [], a, b => if b = unlistedByte font a then [] else [(a, b)]
  | (k, c) :: m, a, b =>
    if a < k then (if b = unlistedByte font a then (k, c) :: m else (a, b) :: (k, c) :: m)
    else if a = k then (if b = unlistedByte font a then m else (a, b) :: m)
    else (k, c) :: memSet font m a b

/-- Bytes written at consecutive ascending addresses (R74). -/
def memSetBytes (font : Font) : Memory → Nat → List Byte → Memory
  | m, _, [] => m
  | m, a, b :: bs => memSetBytes font (memSet font m a b) (a + 1) bs

/-- The canonical form: every address exists, addresses strictly rise, and no entry equals what its address reads as
when unlisted. -/
def Memory.wf (font : Font) : Memory → Bool
  | [] => true
  | (k, c) :: m => decide (k < Config.memSize) && c != unlistedByte font k && m.all (fun e => decide (k < e.1)) && Memory.wf font m

/-- The bound of R73 for the range of `n` bytes from `addr`: no range of no bytes is checked (R262). -/
def inBounds (addr n : Nat) : Bool := n == 0 || decide (addr + n - 1 < Config.memSize)

/-- The first address of an out-of-bounds range that is above 0xFFF (R73, R312). -/
def firstBadAddr (addr : Nat) : Word := BitVec.ofNat 16 (max addr Config.memSize)

/-- The byte at an address (R66, R79). -/
def State.byteAt (s : State) (a : Nat) : Byte := memByte s.font s.mem a

/-- The `n` bytes at `addr`, the one at `addr` first. -/
def State.bytesAt (s : State) (addr n : Nat) : List Byte := (List.range n).map fun k => s.byteAt (addr + k)

/-- MemRead (R73): the bytes of the range, or none where the bound check fails. -/
def State.memRead (s : State) (addr n : Nat) : Option (List Byte) :=
  if inBounds addr n then some (s.bytesAt addr n) else none

/-- The state with memory replaced. -/
def State.setMem (s : State) (m : Memory) : State := { s with mem := m }

/-- MemWrite (R74): the bytes written, or none where the bound check of the whole range fails (R75). -/
def State.memWrite (s : State) (addr : Nat) (bs : List Byte) : Option State :=
  if inBounds addr bs.length then some (s.setMem (memSetBytes s.font s.mem addr bs)) else none

end Sys2Proof.Machine
end

