-- ==== Sys2Proof/Machine/Flags.lean ====
section
/-!
DEFINITION. alu_flags: every flag computation of the spec.  Each is taken from the operands' values before the
instruction writes anything (spec/41_alu.md R160) and is written to VF as 0 or 1.
-/

namespace Sys2Proof.Machine

/-- A flag as the byte VF holds. -/
def flagByte (b : Bool) : Byte := if b then 1 else 0

/-- The carry of ADD Vx,Vy (R167): the exact sum exceeds 255. -/
def carryOut (a b : Byte) : Bool := decide (a.toNat + b.toNat > 255)

/-- The flag of SUB and SUBN (R168, R170): minuend > subtrahend, strictly (90_conflicts C6). -/
def noBorrow (minuend subtrahend : Byte) : Bool := decide (minuend.toNat > subtrahend.toNat)

/-- The bit SHR shifts out (R169). -/
def lowBit (src : Byte) : Bool := src.getLsbD 0

/-- The bit SHL shifts out (R171). -/
def highBit (src : Byte) : Bool := src.getLsbD 7

/-- The flag of ADD I,Vx (R233): the new I exceeds I_FLAG_THRESHOLD, strictly. -/
def indexFlag (newI : Word) : Bool := decide (newI.toNat > Config.iFlagThreshold.toNat)

end Sys2Proof.Machine
end

