-- ==== Sys2Proof/Machine/Ops.lean ====
section
/-!
DEFINITION. The named operations over the state: registers, call stack, framebuffer, timers and keys, and raising a
fault, which is the one exception entry of this hardware (spec/60_exceptions.md R315).  There is no return from a
fault (R322), so nothing stands beside it.
-/

namespace Sys2Proof.Machine

/-- The three outcomes of a step. -/
abbrev Result := Host.Outcome State Fault Refusal

/-! ### General registers and I (register_file) -/

/-- `V[r]` (R31). -/
def State.getV (s : State) (r : Reg) : Byte := s.v[r.toNat]'r.isLt

/-- `V[r] <- b` (R31). -/
def State.setV (s : State) (r : Reg) (b : Byte) : State := { s with v := s.v.set r.toNat b r.isLt }

/-- VF (R32). -/
def vf : Reg := 0xF

/-- `VF <- flag` (R32). -/
def State.setVF (s : State) (flag : Bool) : State := s.setV vf (flagByte flag)

/-- `V[x]` is written first and VF last (R160). -/
def State.setVThenFlag (s : State) (x : Reg) (b : Byte) (flag : Bool) : State := (s.setV x b).setVF flag

/-- `I <- w` (R33). -/
def State.setI (s : State) (w : Word) : State := { s with i := w }

/-- `V[k], V[k+1], ... <- bs`, for the registers that exist (R237). -/
def State.setVs (s : State) : Nat → List Byte → State
  | _, [] => s
  | k, b :: bs => (s.setV (BitVec.ofNat 4 k) b).setVs (k + 1) bs

/-- `V[0..n-1]` in order (R236). -/
def State.getVs (s : State) (n : Nat) : List Byte := (List.range n).map fun k => s.getV (BitVec.ofNat 4 k)

/-! ### PC -/

/-- `PC <- w` (R34). -/
def State.setPc (s : State) (w : Word) : State := { s with pc := w }

/-- pc0 during the execute phase, where PC = (pc0 + 2) mod 2^16 (R143, R146; log 7). -/
def State.pc0 (s : State) : Word := s.pc - Config.insnBytes

/-- The skip of R210 to R213, R286, R287: `PC <- (PC + 2) mod 2^16` when the condition holds. -/
def State.skipIf (s : State) (cond : Bool) : State := if cond then s.setPc (s.pc + Config.insnBytes) else s

/-! ### The call stack (stack_push_pop) -/

/-- `STACK[k]` (R37). -/
def State.slot (s : State) (k : Fin Config.stackDepth) : Word := s.stack[k.val]'k.isLt

/-- The push of R38, `none` when SP = STACK_DEPTH: `STACK[SP] <- w`, then `SP <- SP + 1`. -/
def State.push (s : State) (w : Word) : Option State :=
  if h : s.sp.val < Config.stackDepth then
    some { s with stack := s.stack.set s.sp.val w h, sp := ⟨s.sp.val + 1, by omega⟩ }
  else none

/-- The pop of R38, `none` when SP = 0: `SP <- SP - 1`, and the value of STACK[SP]; the slot keeps it (R37). -/
def State.pop (s : State) : Option (Word × State) :=
  if h : 0 < s.sp.val then
    some (s.slot ⟨s.sp.val - 1, by omega⟩, { s with sp := ⟨s.sp.val - 1, by omega⟩ })
  else none

/-! ### Timers (timer_countdown) -/

/-- `DT <- b` (R39). -/
def State.setDt (s : State) (b : Byte) : State := { s with dt := b }

/-- `ST <- b` (R40). -/
def State.setSt (s : State) (b : Byte) : State := { s with st := b }

/-- One count of a timer: down by 1, floor 0 (R142). -/
def countdown (t : Byte) : Byte := if t = 0 then 0 else t - 1

/-- The countdown of both timers (R142). -/
def State.countTimers (s : State) : State := (s.setDt (countdown s.dt)).setSt (countdown s.st)

/-! ### Keys -/

/-- `KEYS[k]` (R42). -/
def State.keyDown (s : State) (k : Nat) : Bool := s.keys.getLsbD k

/-- The lowest pressed key, `min { k | KEYS[k] = true }` (R285). -/
def firstKey (keys : BitVec Config.numKeys) : Option Nat := (List.range Config.numKeys).find? fun k => keys.getLsbD k

/-! ### The framebuffer (framebuffer_write_controller) -/

/-- `FB[y][x]` at column `x`, row `y`, both reduced to the screen (R41, R262). -/
def pixel (fb : Framebuffer) (x y : Nat) : Bool :=
  (fb[y % Config.fbHeight]'(Nat.mod_lt _ (by decide)))[x % Config.fbWidth]'(Nat.mod_lt _ (by decide))

/-- `FB[y][x] <- not FB[y][x]` (R262). -/
def togglePixel (fb : Framebuffer) (x y : Nat) : Framebuffer :=
  fb.set (y % Config.fbHeight)
    ((fb[y % Config.fbHeight]'(Nat.mod_lt _ (by decide))).set (x % Config.fbWidth) (!pixel fb x y)
      (Nat.mod_lt _ (by decide)))
    (Nat.mod_lt _ (by decide))

/-- A framebuffer of one value everywhere (R260). -/
def clearedFb : Framebuffer := Vector.replicate Config.fbHeight (Vector.replicate Config.fbWidth false)

/-- `FB <- fb` (R41). -/
def State.setFb (s : State) (fb : Framebuffer) : State := { s with fb := fb }

/-- `REDRAW <- b` (R43). -/
def State.setRedraw (s : State) (b : Bool) : State := { s with redraw := b }

/-- One sprite bit at one pixel (R262): a 0 bit does nothing; a 1 bit collides with a set pixel and toggles it.
The pair is the framebuffer and the collision so far. -/
def drawBit (x y : Nat) (bit : Bool) (acc : Framebuffer × Bool) : Framebuffer × Bool :=
  if bit then (togglePixel acc.1 x y, acc.2 || pixel acc.1 x y) else acc

/-- The columns `c .. 7` of one sprite row (R262): bit 7 - c lands on column vx + c. -/
def drawCols (vx y : Nat) (b : Byte) : List Nat → Framebuffer × Bool → Framebuffer × Bool
  | [], acc => acc
  | c :: cs, acc => drawCols vx y b cs (drawBit (vx + c) y (b.getLsbD (7 - c)) acc)

/-- The sprite rows from row `vy` of the screen downwards (R262). -/
def drawRows (vx vy : Nat) : List Byte → Framebuffer × Bool → Framebuffer × Bool
  | [], acc => acc
  | b :: bs, acc => drawRows vx (vy + 1) bs (drawCols vx vy b (List.range 8) acc)

/-! ### Raising a fault -/

/-- STATUS <- FAULTED, FAULT <- the record (R315). -/
def State.enterFaulted (s : State) (r : FaultRecord) : State := { s with status := .faulted, fault := some r }

/-- `raise Fault(code, info)` (R315): the step ends in the Faulted state, and every effect made before stays.  It is a
next state of the machine (log 1). -/
def raiseFault (r : FaultRecord) (s : State) : Result := .next (s.enterFaulted r)

/-- The record of an access of the execute phase that reaches past 0xFFF (R312), its range starting at `addr`. -/
def accessFault (op : Word) (addr : Nat) (s : State) : FaultRecord :=
  .addressOutOfBounds (some op) s.pc0 (firstBadAddr addr)

/-- The code of a fault record (R310). -/
def FaultRecord.code : FaultRecord → BitVec 4
  | .loadTooLarge _ => 1
  | .invalidInstruction _ _ => 2
  | .stackOverflow _ _ => 3
  | .stackUnderflow _ _ => 4
  | .addressOutOfBounds _ _ _ => 5
  | .invalidKeyIndex _ _ _ => 6

/-- The code FAULT holds; 0 means no fault (R310). -/
def State.faultCode (s : State) : BitVec 4 :=
  match s.fault with
  | none => 0
  | some r => r.code

end Sys2Proof.Machine
end

