-- ==== Sys2Proof/Machine/Operands.lean ====
section
/-!
DEFINITION. The operand forms of the instructions: which register a quirk selects, the range an access through I
covers, sprite coordinates, BCD digits and key indexes.
-/

namespace Sys2Proof.Machine

/-- An address field as a 16-bit value (R105): zero-extended, never scaled. -/
def addrWord (a : Addr) : Word := a.setWidth 16

/-- A register value as a 16-bit value, zero-extended (R207, R233). -/
def byteWord (b : Byte) : Word := b.setWidth 16

/-- The source of SHR and SHL (R169, R171): V[x] or V[y] by Q_SHIFT_USES_VX. -/
def State.shiftSource (s : State) (x y : Reg) : Byte := if s.quirks.shiftUsesVx then s.getV x else s.getV y

/-- The offset register of JP V0,nnn (R207): V[addr[11:8]] or V[0] by Q_JUMP_USES_VX. -/
def State.jumpReg (s : State) (a : Addr) : Reg := if s.quirks.jumpUsesVx then a.extractLsb' 8 4 else 0

/-- I as an address: an unsigned integer, offsets added without wrap (R238). -/
def State.indexAddr (s : State) : Nat := s.i.toNat

/-- The number of registers a block transfer moves: V0..Vx inclusive (R236, R237). -/
def blockCount (x : Reg) : Nat := x.toNat + 1

/-- The number of bytes the BCD store writes (R235). -/
def bcdCount : Nat := 3

/-- The BCD digits of a byte: hundreds, tens, ones (R235). -/
def bcdDigits (b : Byte) : List Byte :=
  [BitVec.ofNat 8 (b.toNat / 100), BitVec.ofNat 8 (b.toNat / 10 % 10), BitVec.ofNat 8 (b.toNat % 10)]

/-- The index a block transfer leaves (R236, R237): I + x + 1 mod 2^16 when Q_INDEX_INCREMENT, else I. -/
def State.indexAfterBlock (s : State) (x : Reg) : Word :=
  if s.quirks.indexIncrement then s.i + BitVec.ofNat 16 (blockCount x) else s.i

/-- The forced reset of VF by the bitwise instructions under Q_VF_RESET (R164 to R166). -/
def State.vfResetQuirk (s : State) : State := if s.quirks.vfReset then s.setVF false else s

/-- A register value that names a key (R286, R287): 0x0..0xF. -/
def namesKey (b : Byte) : Bool := decide (b.toNat < Config.numKeys)

end Sys2Proof.Machine
end

