-- ==== Sys2Proof/Machine/Cycle.lean ====
section
/-!
DEFINITION. What a step does around the instruction it executes (spec/40_step_cycle.md R140 to R149), in the order
R140 lists it: STARTED, the key latch, the timer countdown, the fetch with its bound, the PC advance, and what a
word that is no instruction does.
-/

namespace Sys2Proof.Machine

/-- The inputs of the next step (R63): the oldest the host has supplied, or a free input where it has supplied none
(log 3). -/
def State.nextInput (s : State) : StepInput :=
  match s.inputs with
  | input :: _ => input
  | [] => ⟨Config.freeKeys s.inputNo, Config.freeRnd s.inputNo⟩

/-- The step takes its inputs: KEYS is replaced whole (R141), the random byte is held for RND (log 4). -/
def State.takeInput (s : State) : State :=
  { s with keys := s.nextInput.keys, rnd := s.nextInput.rnd, inputs := s.inputs.tail, inputNo := s.inputNo + 1 }

/-- STARTED <- 1 (R151). -/
def State.setStarted (s : State) : State := { s with started := true }

/-- Everything a step does before its fetch, in order: R151, R141, R142. -/
def State.beginStep (s : State) : State := s.setStarted.takeInput.countTimers

/-- The fetch (R144, R145): the big-endian word at PC, or none where it would reach past 0xFFF. -/
def State.fetchWord (s : State) : Option Word :=
  match s.memRead s.pc.toNat Config.insnBytes.toNat with
  | some [hi, lo] => some (beWord hi lo)
  | some _ => none
  | none => none

/-- `PC <- (pc0 + 2) mod 2^16` (R146). -/
def State.advancePc (s : State) : State := s.setPc (s.pc + Config.insnBytes)

/-- A fetch out of bounds (R144): no opcode, PC not advanced. -/
def raiseFetchFault (s : State) : Result :=
  raiseFault (.addressOutOfBounds none s.pc (firstBadAddr s.pc.toNat)) s

/-- The diagnostic event of R149; no state holds it. -/
inductive DiagnosticEvent where
  | unknownFamily (op pc0 : Word)
  deriving DecidableEq, Repr

/-- The policy LOG_AND_SKIP (R149), after PC has advanced: the event goes to the host and nothing else changes
(log 8).  No word reaches it (R110). -/
def logAndSkip (op : Word) (s : State) : DiagnosticEvent × State := (.unknownFamily op s.pc0, s)

/-- What a step does, PC advanced, with a word that is no instruction (R147, R149, R311).  The decoder gets two
bytes here, so `truncated` does not arise; it is a fetch that found no word. -/
def execReject (r : Reject) (s : State) : Result :=
  match r with
  | .invalid op => raiseFault (.invalidInstruction op s.pc0) s
  | .unknownFamily op => .next (logAndSkip op s).2
  | .truncated => raiseFetchFault s

/-- An instruction word stored at PC, big-endian (R101); unchanged where no fetch from PC is possible (R144). -/
def State.placeWord (s : State) (op : Word) : State :=
  match s.memWrite s.pc.toNat [hiByte op, loByte op] with
  | some t => t
  | none => s

end Sys2Proof.Machine
end

