-- ==== Sys2Proof/Machine/Alu.lean ====
section
/-!
DEFINITION. Register loads, arithmetic and logic (spec/41_alu.md): rows 9 to 19 of R108.  PC is already pc0 + 2
(R146); no instruction of this file touches memory, changes PC or faults.
-/

namespace Sys2Proof.Machine

/-- `LD Vx, kk` (R161). -/
def execLdImm (x : Reg) (imm : Byte) (s : State) : Result := .next (s.setV x imm)

/-- `ADD Vx, kk` (R162): wraps, no flag. -/
def execAddImm (x : Reg) (imm : Byte) (s : State) : Result := .next (s.setV x (s.getV x + imm))

/-- `LD Vx, Vy` (R163). -/
def execLdReg (x y : Reg) (s : State) : Result := .next (s.setV x (s.getV y))

/-- `OR Vx, Vy` (R164). -/
def execOrReg (x y : Reg) (s : State) : Result := .next (s.setV x (s.getV x ||| s.getV y)).vfResetQuirk

/-- `AND Vx, Vy` (R165). -/
def execAndReg (x y : Reg) (s : State) : Result := .next (s.setV x (s.getV x &&& s.getV y)).vfResetQuirk

/-- `XOR Vx, Vy` (R166). -/
def execXorReg (x y : Reg) (s : State) : Result := .next (s.setV x (s.getV x ^^^ s.getV y)).vfResetQuirk

/-- `ADD Vx, Vy` (R167): VF <- carry, last. -/
def execAddReg (x y : Reg) (s : State) : Result :=
  .next (s.setVThenFlag x (s.getV x + s.getV y) (carryOut (s.getV x) (s.getV y)))

/-- `SUB Vx, Vy` (R168): minuend V[x]. -/
def execSubReg (x y : Reg) (s : State) : Result :=
  .next (s.setVThenFlag x (s.getV x - s.getV y) (noBorrow (s.getV x) (s.getV y)))

/-- `SHR Vx, Vy` (R169). -/
def execShr (x y : Reg) (s : State) : Result :=
  .next (s.setVThenFlag x (s.shiftSource x y >>> 1) (lowBit (s.shiftSource x y)))

/-- `SUBN Vx, Vy` (R170): minuend V[y]. -/
def execSubnReg (x y : Reg) (s : State) : Result :=
  .next (s.setVThenFlag x (s.getV y - s.getV x) (noBorrow (s.getV y) (s.getV x)))

/-- `SHL Vx, Vy` (R171). -/
def execShl (x y : Reg) (s : State) : Result :=
  .next (s.setVThenFlag x (s.shiftSource x y <<< 1) (highBit (s.shiftSource x y)))

end Sys2Proof.Machine
end

