-- ==== Sys2Proof/Machine/Control.lean ====
section
/-!
DEFINITION. Control transfer and the call stack (spec/42_control_flow.md): RET, SYS, JP, CALL, the conditional
skips, JP V0.  PC is already pc0 + 2 (R146); no delay slots (R200).
-/

namespace Sys2Proof.Machine

/-- `RET` (R201): pops into PC, or raises STACK_UNDERFLOW; `u` is the word's ignored nibble. -/
def execRet (u : Nibble) (s : State) : Result :=
  match s.pop with
  | some (w, t) => .next (t.setPc w)
  | none => raiseFault (.stackUnderflow (encode (.ret u)) s.pc0) s

/-- `SYS nnn` (R203): never executed, always raises INVALID_INSTRUCTION. -/
def execSys (addr : Addr) (s : State) : Result :=
  raiseFault (.invalidInstruction (encode (.sys addr)) s.pc0) s

/-- `JP nnn` (R205). -/
def execJp (addr : Addr) (s : State) : Result := .next (s.setPc (addrWord addr))

/-- `CALL nnn` (R202): pushes PC = pc0 + 2, or raises STACK_OVERFLOW. -/
def execCall (addr : Addr) (s : State) : Result :=
  match s.push s.pc with
  | some t => .next (t.setPc (addrWord addr))
  | none => raiseFault (.stackOverflow (encode (.call addr)) s.pc0) s

/-- `SE Vx, kk` (R210). -/
def execSeImm (x : Reg) (imm : Byte) (s : State) : Result := .next (s.skipIf (s.getV x == imm))

/-- `SNE Vx, kk` (R211). -/
def execSneImm (x : Reg) (imm : Byte) (s : State) : Result := .next (s.skipIf (s.getV x != imm))

/-- `SE Vx, Vy` (R212). -/
def execSeReg (x y : Reg) (s : State) : Result := .next (s.skipIf (s.getV x == s.getV y))

/-- `SNE Vx, Vy` (R213). -/
def execSneReg (x y : Reg) (s : State) : Result := .next (s.skipIf (s.getV x != s.getV y))

/-- `JP V0, nnn` (R207): the target is never reduced to 12 bits. -/
def execJpV0 (addr : Addr) (s : State) : Result :=
  .next (s.setPc (addrWord addr + byteWord (s.getV (s.jumpReg addr))))

end Sys2Proof.Machine
end

