-- ==== Sys2Proof/Machine/Display.lean ====
section
/-!
DEFINITION. framebuffer_write_controller (spec/44_display.md): CLS and DRW.  Screen wrap is the only behaviour; the
clipping and display-wait switches have no effect (R264).
-/

namespace Sys2Proof.Machine

/-- `CLS` (R260): FB all false; VF and REDRAW unchanged. -/
def execCls (s : State) : Result := .next (s.setFb clearedFb)

/-- The sprite of `rows` XORed onto the framebuffer at (V[x], V[y]), with the collision (R261 to R263).  The
coordinates are V[x] and V[y] before VF is reset. -/
def State.drawSprite (s : State) (x y : Reg) (rows : List Byte) : Framebuffer × Bool :=
  drawRows (s.getV x).toNat (s.getV y).toNat rows (s.fb, false)

/-- `DRW Vx, Vy, n` (R262): VF <- collision, REDRAW <- 1. -/
def execDrw (x y : Reg) (n : Nibble) (s : State) : Result :=
  match s.memRead s.indexAddr n.toNat with
  | some rows =>
    .next (((s.setFb (s.drawSprite x y rows).1).setVF (s.drawSprite x y rows).2).setRedraw true)
  | none => raiseFault (accessFault (encode (.drw x y n)) s.indexAddr s) s

end Sys2Proof.Machine
end

