-- ==== Sys2Proof/Machine/Index.lean ====
section
/-!
DEFINITION. The index register and memory transfer (spec/43_index_memory.md).  Every access checks its whole range
before the first write (spec/20_memory.md R75).
-/

namespace Sys2Proof.Machine

/-- `LD I, nnn` (R230). -/
def execLdI (addr : Addr) (s : State) : Result := .next (s.setI (addrWord addr))

/-- `ADD I, Vx` (R233): I wraps mod 2^16, VF says whether the new I exceeds 0x0F00. -/
def execAddI (x : Reg) (s : State) : Result :=
  .next ((s.setI (s.i + byteWord (s.getV x))).setVF (indexFlag (s.i + byteWord (s.getV x))))

/-- `LD F, Vx` (R234): I <- 5 * V[x], the whole register value. -/
def execLdF (x : Reg) (s : State) : Result :=
  .next (s.setI (BitVec.ofNat 16 (Config.glyphBytes * (s.getV x).toNat)))

/-- `LD B, Vx` (R235): hundreds, tens, ones at I, I+1, I+2. -/
def execLdB (x : Reg) (s : State) : Result :=
  match s.memWrite s.indexAddr (bcdDigits (s.getV x)) with
  | some t => .next t
  | none => raiseFault (accessFault (encode (.ldB x)) s.indexAddr s) s

/-- `LD [I], Vx` (R236): V0..Vx to memory at I. -/
def execStore (x : Reg) (s : State) : Result :=
  match s.memWrite s.indexAddr (s.getVs (blockCount x)) with
  | some t => .next (t.setI (s.indexAfterBlock x))
  | none => raiseFault (accessFault (encode (.store x)) s.indexAddr s) s

/-- `LD Vx, [I]` (R237): memory at I to V0..Vx. -/
def execLoad (x : Reg) (s : State) : Result :=
  match s.memRead s.indexAddr (blockCount x) with
  | some bs => .next ((s.setVs 0 bs).setI (s.indexAfterBlock x))
  | none => raiseFault (accessFault (encode (.load x)) s.indexAddr s) s

end Sys2Proof.Machine
end

