-- ==== Sys2Proof/Machine/TimersKeys.lean ====
section
/-!
DEFINITION. Timers, keys and random numbers (spec/45_timers_keys_random.md).  The countdown is part of every step
(R142), KEYS holds this step's key input (R141) and `rnd` this step's random byte (R63).
-/

namespace Sys2Proof.Machine

/-- `RND Vx, kk` (R288): V[x] <- rnd & imm. -/
def execRnd (x : Reg) (imm : Byte) (s : State) : Result := .next (s.setV x (s.rnd &&& imm))

/-- `SKP Vx` (R286): INVALID_KEY_INDEX when V[x] names no key. -/
def execSkp (x : Reg) (s : State) : Result :=
  if namesKey (s.getV x) then .next (s.skipIf (s.keyDown (s.getV x).toNat))
  else raiseFault (.invalidKeyIndex (encode (.skp x)) s.pc0 (s.getV x)) s

/-- `SKNP Vx` (R287): INVALID_KEY_INDEX when V[x] names no key. -/
def execSknp (x : Reg) (s : State) : Result :=
  if namesKey (s.getV x) then .next (s.skipIf (!s.keyDown (s.getV x).toNat))
  else raiseFault (.invalidKeyIndex (encode (.sknp x)) s.pc0 (s.getV x)) s

/-- `LD Vx, DT` (R280): DT after this step's countdown. -/
def execLdVxDt (x : Reg) (s : State) : Result := .next (s.setV x s.dt)

/-- `LD Vx, K` (R285): the lowest pressed key, or PC - 2 so that the next step executes it again. -/
def execLdVxK (x : Reg) (s : State) : Result :=
  .next (match firstKey s.keys with
    | some k => s.setV x (BitVec.ofNat 8 k)
    | none => s.setPc (s.pc - Config.insnBytes))

/-- `LD DT, Vx` (R281). -/
def execLdDtVx (x : Reg) (s : State) : Result := .next (s.setDt (s.getV x))

/-- `LD ST, Vx` (R282). -/
def execLdStVx (x : Reg) (s : State) : Result := .next (s.setSt (s.getV x))

end Sys2Proof.Machine
end

