-- ==== Sys2Proof/Machine/Step.lean ====
section
/-!
DEFINITION. The step transaction (spec/40_step_cycle.md R140), in the check order of spec/60_exceptions.md R319.
-/

namespace Sys2Proof.Machine

/-- One fetch-decode-execute cycle (R140).  From FAULTED or LOAD_FAILED no step is enabled: the machine is stuck
(R150; log 2). -/
def step (s : State) : Host.Outcome State Fault Refusal :=
  match s.status with
  | .faulted => .fault .stuckFaulted
  | .loadFailed => .fault .stuckLoadFailed
  | .running =>
    match s.beginStep.fetchWord with
    | none => raiseFetchFault s.beginStep
    | some op =>
      match classify op with
      | .ok i => exec i s.beginStep.advancePc
      | .error r => execReject r s.beginStep.advancePc

/-- `step(keys, rnd)` as the host calls it (R63): the step takes exactly these inputs. -/
def stepWith (input : StepInput) (s : State) : Host.Outcome State Fault Refusal :=
  step { s with inputs := input :: s.inputs }

/-- `s` with an instruction of the opcode table stored where `step` fetches its next instruction: the word at PC.
Nothing else changes; at reset PC is 0x200 and STATUS is RUNNING (log 10). -/
def State.withFetchWord (s : State) (nbits w : Nat) : State := s.placeWord (tableWord nbits w)

end Sys2Proof.Machine
end

