-- ==== Sys2Proof/Machine/HostPort.lean ====
section
/-!
DEFINITION. The host's transactions other than construct and step (spec/10_state.md R60 to R66,
spec/70_reset_and_hazards.md R352, R366): load_program, clear_redraw, peek, the read port, and supplying the inputs
of a step.
-/

namespace Sys2Proof.Machine

/-- What load_program returns (R352). -/
inductive LoadReply where
  | ok
  | loadTooLarge
  deriving DecidableEq, Repr

/-- What peek returns (R66). -/
inductive PeekReply where
  | byte (b : Byte)
  | outOfRange
  deriving DecidableEq, Repr

/-- load_program is accepted only while STATUS is RUNNING and STARTED is 0 (R49, R352). -/
def State.loadAccepted (s : State) : Bool := s.status == .running && !s.started

/-- A rejected load (R317): STATUS and FAULT say so, MEM is unchanged. -/
def State.rejectLoad (s : State) (length : Nat) : State :=
  { s with status := .loadFailed, fault := some (.loadTooLarge length) }

/-- `load_program(bytes)` (R352, R353): the bytes verbatim from 0x200. -/
def loadProgram (bytes : List Byte) (s : State) : Host.Outcome (LoadReply × State) Fault Refusal :=
  if s.loadAccepted then
    if bytes.length > Config.maxProgram then .next (.loadTooLarge, s.rejectLoad bytes.length)
    else .next (.ok, s.setMem (memSetBytes s.font s.mem Config.programBase bytes))
  else .refused .loadNotAccepted

/-- `clear_redraw()` (R65), accepted in every STATUS. -/
def clearRedraw (s : State) : State := s.setRedraw false

/-- `peek(addr)` (R66): no side effects, accepted in every STATUS. -/
def peek (s : State) (addr : Nat) : PeekReply :=
  if addr < Config.memSize then .byte (s.byteAt addr) else .outOfRange

/-- The host supplies the inputs of a later step, after those it has supplied already (R63; log 3). -/
def supplyInput (input : StepInput) (s : State) : State := { s with inputs := s.inputs ++ [input] }

/-- What the read port shows (R64). -/
structure ReadPort where
  /-- FB row-major: pixel (x, y) is element y * 64 + x of 2048 (R41). -/
  fb : List Bool
  redraw : Bool
  status : Status
  fault : Option FaultRecord
  v : RegFile
  i : Word
  pc : Word
  stack : CallStack
  sp : Fin (Config.stackDepth + 1)
  dt : Byte
  st : Byte
  keys : BitVec Config.numKeys
  /-- The configuration read-out of R45: switch k of its table at bit k. -/
  quirks : BitVec 6
  deriving DecidableEq, Repr

/-- The framebuffer read-out (R41, R64). -/
def fbReadout (fb : Framebuffer) : List Bool :=
  (List.range (Config.fbWidth * Config.fbHeight)).map fun e => pixel fb (e % Config.fbWidth) (e / Config.fbWidth)

/-- The read port (R64), without side effects. -/
def readPort (s : State) : ReadPort where
  fb := fbReadout s.fb
  redraw := s.redraw
  status := s.status
  fault := s.fault
  v := s.v
  i := s.i
  pc := s.pc
  stack := s.stack
  sp := s.sp
  dt := s.dt
  st := s.st
  keys := s.keys
  quirks := s.quirks.bits

end Sys2Proof.Machine
end

