-- ==== Sys2Proof/Safety.lean ====
section
/-!
DEFINITION. The terms claims about chip8_cpu_engine are stated in: what each instruction may write, when it faults,
what a run's end is (spec/70_reset_and_hazards.md R370), and the invariant of the machine.  The numbers here and in the
statements are the spec's, written out, where the machine uses the named parameters of Config (spec/00_scope.md R9):
a parameter changed without the spec makes a statement false.
-/

namespace Sys2Proof.Machine

/-! ### Frames -/

/-- Every general register outside `dst` holds what it held. -/
def SameRegsBut (s t : State) (dst : List Reg) : Prop := ∀ r, r ∉ dst → t.getV r = s.getV r

/-- Every byte of memory reads as it did. -/
def SameBytes (s t : State) : Prop := ∀ a, t.byteAt a = s.byteAt a

/-- Every byte outside the `n` bytes from `addr` reads as it did. -/
def SameBytesBut (s t : State) (addr n : Nat) : Prop := ∀ a, a < addr ∨ addr + n ≤ a → t.byteAt a = s.byteAt a

/-- Only general registers of `dst` differ: no other state, no byte of memory. -/
def OnlyRegs (s t : State) (dst : List Reg) : Prop := t = { s with v := t.v } ∧ SameRegsBut s t dst ∧ SameBytes s t

/-- Only PC differs: no other state, no register, no byte of memory. -/
def OnlyPc (s t : State) : Prop := t = { s with pc := t.pc } ∧ SameRegsBut s t [] ∧ SameBytes s t

/-- Only I and the general registers of `dst` differ. -/
def OnlyIndexAndRegs (s t : State) (dst : List Reg) : Prop :=
  t = { s with v := t.v, i := t.i } ∧ SameRegsBut s t dst ∧ SameBytes s t

/-- The state an access at I past 0xFFF leaves (R312, R315): nothing but STATUS and FAULT differs. -/
def State.afterBadAccess (s : State) (op : Word) : State :=
  { s with
    status := .faulted
    fault := some (.addressOutOfBounds (some op) (s.pc - 2) (if s.i.toNat < 0x1000 then 0x1000 else s.i)) }

/-- The record of an access of `n` bytes at I past 0xFFF, and none where the range stays inside (R312). -/
def pastTheEnd (op : Word) (s : State) (n : Nat) : Option FaultRecord :=
  if 0 < n ∧ 0x1000 < s.i.toNat + n then (s.afterBadAccess op).fault else none

/-- How an instruction treats PC, which holds pc0 + 2 when it executes (R35). -/
inductive PcRole where
  /-- Leaves it. -/
  | advance
  /-- A jump, call or return overwrites it. -/
  | overwrite
  /-- A skip may add a further 2. -/
  | skip
  /-- The key-wait may subtract 2. -/
  | wait
  deriving DecidableEq, Repr

end Sys2Proof.Machine

namespace Sys2Proof

open Sys2Proof.Machine

/-! ### Which instruction writes what -/

/-- The general registers an instruction may write (R31, R32, R237): its destination and, where its rule says so,
VF. -/
def Instr.writesReg (i : Instr) (q : Quirks) (r : Reg) : Prop :=
  match i with
  | .ldImm x _ | .addImm x _ | .ldReg x _ | .rnd x _ | .ldVxDt x | .ldVxK x => r = x
  | .orReg x _ | .andReg x _ | .xorReg x _ => r = x ∨ (q.vfReset = true ∧ r = vf)
  | .addReg x _ | .subReg x _ | .subnReg x _ | .shr x _ | .shl x _ => r = x ∨ r = vf
  | .addI _ | .drw _ _ _ => r = vf
  | .load x => r.toNat ≤ x.toNat
  | .cls _ | .ret _ | .sys _ | .jp _ | .call _ | .seImm _ _ | .sneImm _ _ | .seReg _ _ | .sneReg _ _ | .ldI _
  | .jpV0 _ | .skp _ | .sknp _ | .ldDtVx _ | .ldStVx _ | .ldF _ | .ldB _ | .store _ => False

/-- The instructions that may write I (R33). -/
def Instr.writesIndex (i : Instr) (q : Quirks) : Prop :=
  match i with
  | .ldI _ | .addI _ | .ldF _ => True
  | .store _ | .load _ => q.indexIncrement = true
  | .cls _ | .ret _ | .sys _ | .jp _ | .call _ | .seImm _ _ | .sneImm _ _ | .seReg _ _ | .ldImm _ _ | .addImm _ _
  | .ldReg _ _ | .orReg _ _ | .andReg _ _ | .xorReg _ _ | .addReg _ _ | .subReg _ _ | .shr _ _ | .subnReg _ _
  | .shl _ _ | .sneReg _ _ | .jpV0 _ | .rnd _ _ | .drw _ _ _ | .skp _ | .sknp _ | .ldVxDt _ | .ldVxK _
  | .ldDtVx _ | .ldStVx _ | .ldB _ => False

/-- The number of bytes an instruction stores at I (R78). -/
def Instr.storeCount : Instr → Nat
  | .ldB _ => bcdCount
  | .store x => blockCount x
  | .cls _ | .ret _ | .sys _ | .jp _ | .call _ | .seImm _ _ | .sneImm _ _ | .seReg _ _ | .ldImm _ _ | .addImm _ _
  | .ldReg _ _ | .orReg _ _ | .andReg _ _ | .xorReg _ _ | .addReg _ _ | .subReg _ _ | .shr _ _ | .subnReg _ _
  | .shl _ _ | .sneReg _ _ | .ldI _ | .jpV0 _ | .rnd _ _ | .drw _ _ _ | .skp _ | .sknp _ | .ldVxDt _ | .ldVxK _
  | .ldDtVx _ | .ldStVx _ | .addI _ | .ldF _ | .load _ => 0

/-- The PC role of each instruction (R35). -/
def Instr.pcRole : Instr → PcRole
  | .ret _ | .jp _ | .call _ | .jpV0 _ => .overwrite
  | .seImm _ _ | .sneImm _ _ | .seReg _ _ | .sneReg _ _ | .skp _ | .sknp _ => .skip
  | .ldVxK _ => .wait
  | .cls _ | .sys _ | .ldImm _ _ | .addImm _ _ | .ldReg _ _ | .orReg _ _ | .andReg _ _ | .xorReg _ _
  | .addReg _ _ | .subReg _ _ | .shr _ _ | .subnReg _ _ | .shl _ _ | .ldI _ | .rnd _ _ | .drw _ _ _
  | .ldVxDt _ | .ldDtVx _ | .ldStVx _ | .addI _ | .ldF _ | .ldB _ | .store _ | .load _ => .advance

/-! ### Faults -/

/-- The one check each instruction makes and the record it leaves when the check fails (R310 to R316, R319), where
PC = pc0 + 2. -/
def Instr.faultIn (i : Instr) (s : State) : Option FaultRecord :=
  match i with
  | .sys _ => some (.invalidInstruction (encode i) (s.pc - 2))
  | .ret _ => if s.sp.val = 0 then some (.stackUnderflow (encode i) (s.pc - 2)) else none
  | .call _ => if s.sp.val = 16 then some (.stackOverflow (encode i) (s.pc - 2)) else none
  | .skp x | .sknp x =>
    if (s.getV x).toNat > 0xF then some (.invalidKeyIndex (encode i) (s.pc - 2) (s.getV x)) else none
  | .drw _ _ n => pastTheEnd (encode i) s n.toNat
  | .ldB _ => pastTheEnd (encode i) s 3
  | .store x | .load x => pastTheEnd (encode i) s (x.toNat + 1)
  | .cls _ | .jp _ | .seImm _ _ | .sneImm _ _ | .seReg _ _ | .ldImm _ _ | .addImm _ _ | .ldReg _ _ | .orReg _ _
  | .andReg _ _ | .xorReg _ _ | .addReg _ _ | .subReg _ _ | .shr _ _ | .subnReg _ _ | .shl _ _ | .sneReg _ _
  | .ldI _ | .jpV0 _ | .rnd _ _ | .ldVxDt _ | .ldVxK _ | .ldDtVx _ | .ldStVx _ | .addI _ | .ldF _ => none

end Sys2Proof

namespace Sys2Proof.Machine

/-! ### The step -/

/-- The word at PC, big-endian, where both its bytes exist (R76, R145). -/
def State.wordAtPc (s : State) : Word := s.byteAt s.pc.toNat ++ s.byteAt (s.pc.toNat + 1)

/-- The state the execute phase starts from (R140 up to R146), written out field by field. -/
def State.atExecute (s : State) : State :=
  { s with
    started := true
    keys := s.nextInput.keys
    rnd := s.nextInput.rnd
    inputs := s.inputs.tail
    inputNo := s.inputNo + 1
    dt := BitVec.ofNat 8 (s.dt.toNat - 1)
    st := BitVec.ofNat 8 (s.st.toNat - 1)
    pc := s.pc + 2 }

/-- STATUS is RUNNING and the step's fetch stays in memory (R144). -/
def State.fetches (s : State) : Prop := s.status = .running ∧ s.pc.toNat ≤ 0xFFE

/-- The step `s` takes fetches instruction `i`. -/
def State.fetchesInstr (s : State) (i : Instr) : Prop := s.fetches ∧ classify s.wordAtPc = .ok i

/-- A change of the next state alone. -/
def mapNext (f : State → State) : Result → Result
  | .next t => .next (f t)
  | .fault r => .fault r
  | .refused r => .refused r

/-! ### The screen -/

/-- A 1 bit of the sprite of height `n` at I, drawn at (V[x], V[y]), lands on column `px`, row `py` (R261). -/
def State.spriteCovers (s : State) (x y : Reg) (n px py : Nat) : Prop :=
  ∃ r c, r < n ∧ c < 8 ∧ px = ((s.getV x).toNat + c) % 64 ∧ py = ((s.getV y).toNat + r) % 32 ∧
    (s.byteAt (s.i.toNat + r)).getLsbD (7 - c) = true

/-! ### The end of a run -/

/-- A run has ended in a bad state (R370). -/
def BadEnd (s : State) : Prop := s.status = .faulted ∨ s.status = .loadFailed

/-- A parked state (R370): PC = a and the word there is a JP to a. -/
def Parked (s : State) : Prop := s.fetches ∧ s.wordAtPc = 0x1#4 ++ s.pc.extractLsb' 0 12

/-- The clean-entry state of a program (R355): construction, then a successful load. -/
def CleanEntry (q : Quirks) (font : Font) (program : List Byte) (s : State) : Prop :=
  loadProgram program (State.construct q font) = .next (.ok, s)

/-! ### The invariant -/

/-- A record is one its cause can leave (R310, R312, R316, R317). -/
def FaultRecord.possible : FaultRecord → Prop
  | .loadTooLarge n => 3584 < n
  | .addressOutOfBounds _ _ a => 0x1000 ≤ a.toNat
  | .invalidKeyIndex _ _ v => 0xF < v.toNat
  | .invalidInstruction _ _ | .stackOverflow _ _ | .stackUnderflow _ _ => True

/-- FAULT agrees with STATUS (R48): none while RUNNING, a record of a step's fault in FAULTED, the rejected load in
LOAD_FAILED. -/
def StatusRecord : Status → Option FaultRecord → Prop
  | .running, none => True
  | .running, some _ => False
  | .faulted, none => False
  | .faulted, some r => r.code ≠ 1 ∧ r.possible
  | .loadFailed, none => False
  | .loadFailed, some r => r.code = 1 ∧ r.possible

/-- The invariant of the machine. -/
structure Inv (s : State) : Prop where
  /-- Memory is in its canonical form. -/
  memCanonical : Memory.wf s.font s.mem = true
  /-- PC never passes the highest target of JP V0,nnn (R207, 92_eei_decisions D6). -/
  pcBound : s.pc.toNat ≤ 0x10FE
  /-- A stack slot holds an address CALL can push: at most 0x1000 (R201). -/
  slotBound : ∀ k, (s.slot k).toNat ≤ 0x1000
  /-- FAULT agrees with STATUS (R48). -/
  statusRecord : StatusRecord s.status s.fault

end Sys2Proof.Machine
end

