-- ==== Sys2Proof/Certificates/Slice0/Obligations.lean ====
section
/-!
DEFINITION. The statements about chip8_cpu_engine for the provers.  Each docstring names the rule of spec/ it
formalises, or the decision of the spec or the log entry it rests on.
-/

open Sys2Proof Sys2Proof.Machine

/-! ### Encoding and decoding -/

/-- Decode and encode agree (30_encoding.md sections 1 to 3): the decoder reads every well-formed instruction back
from its bytes, whatever follows them.  The bit patterns are those of R108 (general knowledge, marked so there). -/
def Obligations.DecodingAnEncodedInstructionGivesItBack : Prop :=
  ∀ (i : Instr) (rest : List Byte), i.wf = true → decode (encodeBytes i ++ rest) = .ok (i, rest)

/-- The other direction: a word that classifies as an instruction is the word of that instruction, which is
well-formed, so no two words give one instruction.  The ignored nibble of CLS and RET is kept (log 7). -/
def Obligations.EncodingADecodedWordGivesItBack : Prop :=
  ∀ (op : Word) (i : Instr), classify op = .ok i → i.wf = true ∧ encode i = op

/-- The two-level dispatch of R106 gives what classification by the first matching row (R107) gives, for every word.
The rows 0x5, 0x9 and 0xE of R106 are decision D12 and general knowledge. -/
def Obligations.TwoLevelDispatchIsTheFirstMatchingRow : Prop :=
  ∀ op : Word, dispatch (fields op) = match classify op with
    | .ok i => some i
    | .error _ => none

/-- The invalid words are exactly those of the table of R109 (decision D12): the first clause is its rows 0x5, 0x8,
0x9, 0xE and 0xF, the second its row 0x0, the SYS words. -/
def Obligations.InvalidWordsAreThoseListed : Prop :=
  ∀ op : Word,
    (classify op = .error (.invalid op) ↔
      ((fields op).family = 0x5 ∧ (fields op).nib ≠ 0) ∨
        ((fields op).family = 0x8 ∧ (fields op).nib ∈ [0x8#4, 0x9#4, 0xA#4, 0xB#4, 0xC#4, 0xD#4, 0xF#4]) ∨
        ((fields op).family = 0x9 ∧ (fields op).nib ≠ 0) ∨
        ((fields op).family = 0xE ∧ (fields op).imm ∉ [0x9E#8, 0xA1#8]) ∨
        ((fields op).family = 0xF ∧ (fields op).imm ∉
          [0x07#8, 0x0A#8, 0x15#8, 0x18#8, 0x1E#8, 0x29#8, 0x33#8, 0x55#8, 0x65#8])) ∧
    ((∃ a, classify op = .ok (.sys a)) ↔ (fields op).family = 0x0 ∧ (fields op).imm ∉ [0xE0#8, 0xEE#8])

/-- All 16 families are recognized, so no word reaches the policy LOG_AND_SKIP (30_encoding.md section 4, decision
D13; 40_step_cycle.md R149). -/
def Obligations.NoWordHasAnUnknownFamily : Prop :=
  (∀ family : Nibble, recognizedFamily family = true) ∧ ∀ op w : Word, classify op ≠ .error (.unknownFamily w)

/-- Words of the decoder vectors K1 to K14 of 95_test_vectors.md, one of each family at least. -/
def Obligations.SampleWordsDecode : Prop :=
  decode [0xD1, 0x25] = .ok (.drw 1 2 5, []) ∧ decode [0x0A, 0xE0] = .ok (.cls 0xA, []) ∧
    decode [0x00, 0xEF] = .ok (.sys 0x0EF, []) ∧ decode [0x80, 0x0E] = .ok (.shl 0 0, []) ∧
    decode [0x80, 0x08] = .error (.invalid 0x8008) ∧ decode [0x5A, 0xB0] = .ok (.seReg 0xA 0xB, []) ∧
    decode [0x5A, 0xB1] = .error (.invalid 0x5AB1) ∧ decode [0xEA, 0x9E] = .ok (.skp 0xA, []) ∧
    decode [0xF1, 0x29] = .ok (.ldF 1, []) ∧ decode [0xF1, 0x65] = .ok (.load 1, []) ∧
    decode [0x1F, 0xFF] = .ok (.jp 0xFFF, []) ∧ decode [0x6A, 0x42] = .ok (.ldImm 0xA 0x42, [])

/-! ### The step -/

/-- A step runs the decoded instruction (40_step_cycle.md section 1; the order of its effects is decision D27): when
the two bytes at PC classify as `i`, the step is `exec i` from the state with STARTED set, the step's inputs taken,
both timers counted and PC advanced by 2.  Taking the inputs from a queue, or free, and latching the random byte are the
model's choice (log 3, 4). -/
def Obligations.StepRunsTheDecodedInstruction : Prop :=
  ∀ (s : State) (i : Instr), s.status = .running → s.pc.toNat ≤ 0xFFE →
    classify (s.byteAt s.pc.toNat ++ s.byteAt (s.pc.toNat + 1)) = .ok i →
    step s = exec i
      { s with
        started := true
        keys := s.nextInput.keys
        rnd := s.nextInput.rnd
        inputs := s.inputs.tail
        inputNo := s.inputNo + 1
        dt := BitVec.ofNat 8 (s.dt.toNat - 1)
        st := BitVec.ofNat 8 (s.st.toNat - 1)
        pc := s.pc + 2 }

/-- Whatever a step ends in, KEYS is the step's key input, and each timer is one less, floor 0, unless the instruction
is the one that writes it; every instruction, LD Vx,DT among them, runs with the new KEYS and the counted timers
(40_step_cycle.md section 1).  That the inputs come from a queue, or are free, is the model's choice (log 3), and so is
the latch of the random byte in the state the instruction runs from (log 4); the values LD DT, LD ST and LD Vx,DT leave
are general knowledge (45_timers_keys_random.md section 1). -/
def Obligations.EveryStepLatchesKeysAndCountsTimers : Prop :=
  ∀ s t : State, step s = .next t →
    t.keys = s.nextInput.keys ∧
    (∀ (input : StepInput) (rest : List StepInput), s.inputs = input :: rest → t.keys = input.keys ∧ t.inputs = rest) ∧
    ((∀ x, ¬ s.fetchesInstr (.ldDtVx x)) → t.dt.toNat = s.dt.toNat - 1) ∧
    ((∀ x, ¬ s.fetchesInstr (.ldStVx x)) → t.st.toNat = s.st.toNat - 1) ∧
    (∀ x, s.fetchesInstr (.ldDtVx x) → t.dt = s.getV x) ∧
    (∀ x, s.fetchesInstr (.ldStVx x) → t.st = s.getV x) ∧
    (∀ x, s.fetchesInstr (.ldVxDt x) → (t.getV x).toNat = s.dt.toNat - 1) ∧
    ∀ i, s.fetchesInstr i → exec i s.atExecute = .next t

/-- A fetch past 0xFFF faults before PC is advanced (40_step_cycle.md R144, decisions D17 and D31): opcode none, pc0,
and the first address out of bounds.  The step's inputs are taken as log 3 and 4 say. -/
def Obligations.FetchPastTheEndFaults : Prop :=
  ∀ s : State, s.status = .running → 0xFFE < s.pc.toNat →
    step s = .next
      { s.atExecute with
        pc := s.pc
        status := .faulted
        fault := some (.addressOutOfBounds none s.pc (if s.pc.toNat < 0x1000 then 0x1000 else s.pc)) }

/-- A step whose fetched word classifies as INVALID or as SYS raises INVALID_INSTRUCTION; the record holds the raw word
and pc0, and nothing else of the execute phase happens (60_exceptions.md section 1; that SYS words are among them is
decision D12, that the record's PC is pc0 is decision D29).  The step's inputs are taken as log 3 and 4 say. -/
def Obligations.InvalidAndSysWordsFault : Prop :=
  ∀ s : State, s.fetches →
    (classify s.wordAtPc = .error (.invalid s.wordAtPc) ∨ ∃ a, classify s.wordAtPc = .ok (.sys a)) →
    step s = .next
      { s.atExecute with status := .faulted, fault := some (.invalidInstruction s.wordAtPc s.pc) }

/-- After a fault or a rejected load no step is enabled (40_step_cycle.md R150, decision D33; log 2). -/
def Obligations.EngineIsStuckUnlessRunning : Prop :=
  ∀ s : State, (s.status = .faulted → step s = .fault .stuckFaulted) ∧
    (s.status = .loadFailed → step s = .fault .stuckLoadFailed)

/-- Every step of a running engine, and the execute phase of every instruction, answers a next state: the faults of
60_exceptions.md section 1 are next states too (decision D8; log 1). -/
def Obligations.EveryRunningStepAnswersANextState : Prop :=
  (∀ s : State, s.status = .running → ∃ t, step s = .next t) ∧ ∀ (i : Instr) (s : State), ∃ t, exec i s = .next t

/-- Each instruction faults exactly when its one check fails, with the record of 60_exceptions.md section 1, and then
nothing but STATUS and FAULT differs; otherwise it leaves both alone (sections 1 and 2; decisions D8, D9). -/
def Obligations.InstructionsFaultExactlyWhenTheirCheckFails : Prop :=
  ∀ (i : Instr) (s : State),
    (∀ r, i.faultIn s = some r → exec i s = .next { s with status := .faulted, fault := some r }) ∧
    (i.faultIn s = none → ∃ t, exec i s = .next t ∧ t.status = s.status ∧ t.fault = s.fault)

/-! ### Whole-machine rules -/

/-- Every step keeps the invariant: canonical memory, PC at most 0x10FE (decision D6), stack slots at most 0x1000,
FAULT in agreement with STATUS (10_state.md sections 4, 5, 10 and 12). -/
def Obligations.EveryStepKeepsTheInvariant : Prop :=
  ∀ s t : State, Inv s → step s = .next t → Inv t

/-- The invariant holds at reset, and after every construction. -/
def Obligations.ConstructionMeetsTheInvariant : Prop :=
  Inv State.reset ∧ ∀ (q : Quirks) (font : Font), Inv (State.construct q font)

/-- The construction parameters never change (10_state.md R46, decision D34; 20_memory.md R80, decision D21): not by
a step, not by a host transaction. -/
def Obligations.ConstructionParametersNeverChange : Prop :=
  ∀ s t : State,
    (step s = .next t ∨ (∃ bytes reply, loadProgram bytes s = .next (reply, t)) ∨ t = clearRedraw s ∨
      ∃ input, t = supplyInput input s) →
    t.quirks = s.quirks ∧ t.font = s.font

/-- Q_CLIPPING and Q_DISPLAY_WAIT have no effect (10_state.md section 11, 44_display.md section 2; decision D3): a
machine that differs in these two switches alone takes the same step. -/
def Obligations.InertQuirksHaveNoEffect : Prop :=
  ∀ (s : State) (clip wait : Bool),
    step { s with quirks := { s.quirks with clipping := clip, displayWait := wait } } =
      mapNext (fun t => { t with quirks := { t.quirks with clipping := clip, displayWait := wait } }) (step s)

/-- The random byte reaches no instruction but RND, and the key state none but SKP, SKNP and LD Vx,K (10_state.md
sections 8 and 14; decision D22).  The byte is the one State holds for the step (log 4, the model's choice). -/
def Obligations.InputsReachOnlyTheirReaders : Prop :=
  ∀ (i : Instr) (s : State) (byte : Byte) (keys : BitVec 16),
    ((∀ x k, i ≠ .rnd x k) →
      exec i { s with rnd := byte } = mapNext (fun t => { t with rnd := byte }) (exec i s)) ∧
    ((∀ x, i ≠ .skp x ∧ i ≠ .sknp x ∧ i ≠ .ldVxK x) →
      exec i { s with keys := keys } = mapNext (fun t => { t with keys := keys }) (exec i s))

/-- A parked engine stays parked (70_reset_and_hazards.md section 5): for every number of steps, PC, the registers,
the stack, memory and the screen stay, and only the timers, KEYS, STARTED and the model's own step inputs (log 3, 4)
move. -/
def Obligations.ParkedEngineStaysParked : Prop :=
  ∀ (s : State) (n : Nat), Parked s →
    ∃ t, Sys2Proof.core.run n s = .next t ∧ Parked t ∧ t.dt.toNat = s.dt.toNat - n ∧ t.st.toNat = s.st.toNat - n ∧
      t = { s with
        started := t.started, keys := t.keys, rnd := t.rnd, inputs := t.inputs, inputNo := t.inputNo,
        dt := t.dt, st := t.st }

/-- CALL then RET restores PC to the instruction after the CALL, and SP, whatever PC was in between (95_test_vectors.md
S7; 42_control_flow.md section 2). -/
def Obligations.CallThenReturnRestoresPc : Prop :=
  ∀ (s : State) (addr : Addr) (u : Nibble) (p : Word), s.sp.val < 16 →
    ∃ t, exec (.call addr) s = .next t ∧
      exec (.ret u) { t with pc := p } = .next { t with pc := s.pc, sp := s.sp }

/-- A stored byte is the byte a later fetch of that address sees (20_memory.md section 6, decision D25): after
LD [I],Vx a fetch inside the stored range reads the registers' values.  Memory is canonical, as it is in every state
a run reaches. -/
def Obligations.StoredBytesAreFetched : Prop :=
  ∀ (s : State) (x : Reg) (p : Word), Memory.wf s.font s.mem = true → s.i.toNat + x.toNat ≤ 0xFFF →
    s.i.toNat ≤ p.toNat → p.toNat + 1 ≤ s.i.toNat + x.toNat →
    ∃ t, exec (.store x) s = .next t ∧
      ({ t with pc := p } : State).fetchWord =
        some (s.getV (BitVec.ofNat 4 (p.toNat - s.i.toNat)) ++ s.getV (BitVec.ofNat 4 (p.toNat + 1 - s.i.toNat)))

/-- Which registers an instruction may write (10_state.md section 2): every other one, VF included, is unchanged. -/
def Obligations.RegistersChangeOnlyAsListed : Prop :=
  ∀ (i : Instr) (s t : State), exec i s = .next t → ∀ r, ¬ i.writesReg s.quirks r → t.getV r = s.getV r

/-- I is written only by LD I, ADD I, LD F, and the block transfers under Q_INDEX_INCREMENT (10_state.md section 3). -/
def Obligations.IndexChangesOnlyAsListed : Prop :=
  ∀ (i : Instr) (s t : State), exec i s = .next t → ¬ i.writesIndex s.quirks → t.i = s.i

/-- No instruction writes a byte of memory outside the bytes it stores at I (20_memory.md section 3): LD B three,
LD [I] x + 1, every other none. -/
def Obligations.MemoryChangesOnlyWhereStored : Prop :=
  ∀ (i : Instr) (s t : State), exec i s = .next t → SameBytesBut s t s.indexAddr i.storeCount

/-- Only CLS and DRW write FB, only DRW changes REDRAW and only to 1 (10_state.md sections 7 and 9): FB persists
otherwise, a step never clears REDRAW, and clear_redraw does. -/
def Obligations.ScreenAndRedrawChangeOnlyAsListed : Prop :=
  ∀ s t : State, step s = .next t →
    ((∀ u, ¬ s.fetchesInstr (.cls u)) → (∀ x y n, ¬ s.fetchesInstr (.drw x y n)) → t.fb = s.fb) ∧
    ((∀ x y n, ¬ s.fetchesInstr (.drw x y n)) → t.redraw = s.redraw) ∧
    (s.redraw = true → t.redraw = true) ∧ (clearRedraw s).redraw = false

/-- Only CALL writes a stack slot, only CALL and RET move SP; no instruction writes KEYS; only LD DT and LD ST write
the timers (10_state.md sections 5, 6 and 8). -/
def Obligations.StackKeysAndTimersChangeOnlyAsListed : Prop :=
  ∀ (i : Instr) (s t : State), exec i s = .next t →
    ((∀ a, i ≠ .call a) → t.stack = s.stack) ∧
    ((∀ a, i ≠ .call a) → (∀ u, i ≠ .ret u) → t.sp = s.sp) ∧
    t.keys = s.keys ∧ ((∀ x, i ≠ .ldDtVx x) → t.dt = s.dt) ∧ ((∀ x, i ≠ .ldStVx x) → t.st = s.st)

/-- A step advances PC by 2 per fetch; jumps, calls and returns overwrite it, skips add a further 2, the key-wait
subtracts 2 (10_state.md section 4; that the sum of JP V0,nnn is not reduced to 12 bits is decision D6). -/
def Obligations.PcMovesByTwoUnlessOverwritten : Prop :=
  ∀ s t : State, s.fetches → step s = .next t →
    ((∀ i, ¬ s.fetchesInstr i) → t.pc = s.pc + 2) ∧
    ∀ i, s.fetchesInstr i →
      (i.pcRole = .advance → t.pc = s.pc + 2) ∧
      (i.pcRole = .skip → t.pc = s.pc + 2 ∨ t.pc = s.pc + 2 + 2) ∧
      (i.pcRole = .wait → t.pc = s.pc + 2 ∨ t.pc = s.pc + 2 - 2) ∧
      (i.pcRole = .overwrite → t.status ≠ .running → t.pc = s.pc + 2) ∧
      (i.pcRole = .overwrite → t.status = .running →
        (∃ a, (i = .jp a ∨ i = .call a) ∧ t.pc = a.setWidth 16) ∨
        (∃ a, i = .jpV0 a ∧ t.pc = a.setWidth 16 + (s.getV (s.jumpReg a)).setWidth 16) ∨
        (∃ u k, i = .ret u ∧ s.sp.val = k.val + 1 ∧ t.pc = s.slot k))

/-! ### Register loads, arithmetic and logic -/

/-- LD Vx,kk and LD Vx,Vy (41_alu.md section 2; general knowledge, marked so there). -/
def Obligations.RegisterLoads : Prop :=
  ∀ (s : State) (x y : Reg) (imm : Byte),
    (∃ t, exec (.ldImm x imm) s = .next t ∧ OnlyRegs s t [x] ∧ t.getV x = imm) ∧
    (∃ t, exec (.ldReg x y) s = .next t ∧ OnlyRegs s t [x] ∧ t.getV x = s.getV y)

/-- R162: ADD Vx,kk is 8-bit wraparound addition and writes no flag. -/
def Obligations.AddImmediateWrapsWithoutFlag : Prop :=
  ∀ (s : State) (x : Reg) (imm : Byte),
    ∃ t, exec (.addImm x imm) s = .next t ∧ OnlyRegs s t [x] ∧
      (t.getV x).toNat = ((s.getV x).toNat + imm.toNat) % 256

/-- R164, R165, R166: OR, AND and XOR in place; VF is then forced to 0 when Q_VF_RESET, whatever x is, and otherwise
changes only as the destination. -/
def Obligations.BitwiseInstructionsResetVfByQuirk : Prop :=
  ∀ (s : State) (x y : Reg) (i : Instr) (result : Byte),
    (i = .orReg x y ∧ result = s.getV x ||| s.getV y ∨ i = .andReg x y ∧ result = s.getV x &&& s.getV y ∨
      i = .xorReg x y ∧ result = s.getV x ^^^ s.getV y) →
    ∃ t, exec i s = .next t ∧
      (s.quirks.vfReset = true → OnlyRegs s t [x, 0xF] ∧ t.getV 0xF = 0 ∧ (x ≠ 0xF → t.getV x = result)) ∧
      (s.quirks.vfReset = false → OnlyRegs s t [x] ∧ t.getV x = result)

/-- R167: ADD Vx,Vy wraps; VF is then 1 when the exact sum exceeds 255, else 0, also when x is 0xF. -/
def Obligations.AddRegistersSetsCarry : Prop :=
  ∀ (s : State) (x y : Reg),
    ∃ t, exec (.addReg x y) s = .next t ∧ OnlyRegs s t [x, 0xF] ∧
      (x ≠ 0xF → (t.getV x).toNat = ((s.getV x).toNat + (s.getV y).toNat) % 256) ∧
      t.getV 0xF = if (s.getV x).toNat + (s.getV y).toNat > 255 then 1 else 0

/-- SUB and SUBN (41_alu.md section 4): the difference wraps; VF is then 1 when minuend > subtrahend, strictly, else 0.
That VF is written last is decision D4; SUBN's minuend is general knowledge, marked so there. -/
def Obligations.SubtractionsSetNoBorrow : Prop :=
  ∀ (s : State) (x y : Reg),
    (∃ t, exec (.subReg x y) s = .next t ∧ OnlyRegs s t [x, 0xF] ∧
      (x ≠ 0xF → ((t.getV x).toNat : Int) = ((s.getV x).toNat - (s.getV y).toNat : Int) % 256) ∧
      t.getV 0xF = if (s.getV x).toNat > (s.getV y).toNat then 1 else 0) ∧
    (∃ t, exec (.subnReg x y) s = .next t ∧ OnlyRegs s t [x, 0xF] ∧
      (x ≠ 0xF → ((t.getV x).toNat : Int) = ((s.getV y).toNat - (s.getV x).toNat : Int) % 256) ∧
      t.getV 0xF = if (s.getV y).toNat > (s.getV x).toNat then 1 else 0)

/-- SHR and SHL (41_alu.md section 5): the source is V[x] or V[y] by Q_SHIFT_USES_VX, the result goes to V[x] (general
knowledge, marked so there), and VF is the bit shifted out, written last (decision D4). -/
def Obligations.ShiftsTakeTheQuirksSource : Prop :=
  ∀ (s : State) (x y : Reg) (src : Byte),
    src = (if s.quirks.shiftUsesVx = true then s.getV x else s.getV y) →
    (∃ t, exec (.shr x y) s = .next t ∧ OnlyRegs s t [x, 0xF] ∧
      (x ≠ 0xF → (t.getV x).toNat = src.toNat / 2) ∧ (t.getV 0xF).toNat = src.toNat % 2) ∧
    (∃ t, exec (.shl x y) s = .next t ∧ OnlyRegs s t [x, 0xF] ∧
      (x ≠ 0xF → (t.getV x).toNat = src.toNat * 2 % 256) ∧ (t.getV 0xF).toNat = src.toNat / 128)

/-! ### Control transfer -/

/-- RET (42_control_flow.md section 2; the underflow policy is decision D10): pops into PC and keeps the slot; on an
empty stack it raises STACK_UNDERFLOW and changes nothing else. -/
def Obligations.ReturnPopsOrUnderflows : Prop :=
  ∀ (s : State) (u : Nibble),
    (∀ k : Fin 16, s.sp.val = k.val + 1 →
      ∃ t, exec (.ret u) s = .next t ∧ t = { s with pc := s.slot k, sp := t.sp } ∧ t.sp.val = k.val ∧
        SameRegsBut s t [] ∧ SameBytes s t) ∧
    (s.sp.val = 0 →
      exec (.ret u) s = .next
        { s with status := .faulted, fault := some (.stackUnderflow (0x0#4 ++ u ++ 0xEE#8) (s.pc - 2)) })

/-- CALL (42_control_flow.md section 2; the overflow policy is decision D10): pushes PC, already the address after the
CALL, and jumps; on a full stack it raises STACK_OVERFLOW and changes nothing else. -/
def Obligations.CallPushesOrOverflows : Prop :=
  ∀ (s : State) (addr : Addr),
    (∀ k : Fin 16, s.sp.val = k.val →
      ∃ t, exec (.call addr) s = .next t ∧ t = { s with pc := t.pc, stack := t.stack, sp := t.sp } ∧
        t.pc.toNat = addr.toNat ∧ t.slot k = s.pc ∧ (∀ j, j ≠ k → t.slot j = s.slot j) ∧ t.sp.val = k.val + 1 ∧
        SameRegsBut s t [] ∧ SameBytes s t) ∧
    (s.sp.val = 16 →
      exec (.call addr) s = .next
        { s with status := .faulted, fault := some (.stackOverflow (0x2#4 ++ addr) (s.pc - 2)) })

/-- SYS nnn is never executed (42_control_flow.md section 2, decision D12): its effect is to raise
INVALID_INSTRUCTION. -/
def Obligations.SysRaisesInvalidInstruction : Prop :=
  ∀ (s : State) (addr : Addr),
    exec (.sys addr) s = .next
      { s with status := .faulted, fault := some (.invalidInstruction (0x0#4 ++ addr) (s.pc - 2)) }

/-- JP nnn (42_control_flow.md section 3; general knowledge, marked so there): only PC changes, to the 12-bit
address. -/
def Obligations.JumpSetsPc : Prop :=
  ∀ (s : State) (addr : Addr), ∃ t, exec (.jp addr) s = .next t ∧ OnlyPc s t ∧ t.pc.toNat = addr.toNat

/-- JP V0,nnn (42_control_flow.md section 3; no reduction to 12 bits is decision D6): the exact sum of the address and
V[0], or V[addr[11:8]] under Q_JUMP_USES_VX. -/
def Obligations.JumpWithOffsetAddsTheQuirksRegister : Prop :=
  ∀ (s : State) (addr : Addr) (r : Reg),
    r.toNat = (if s.quirks.jumpUsesVx = true then addr.toNat / 256 else 0) →
    ∃ t, exec (.jpV0 addr) s = .next t ∧ OnlyPc s t ∧ t.pc.toNat = addr.toNat + (s.getV r).toNat

/-- R210, R211, R212, R213: the conditional skips advance PC by an additional 2 exactly when their condition holds, and
change nothing else. -/
def Obligations.SkipsAdvancePcOnTheirCondition : Prop :=
  ∀ (s : State) (x y : Reg) (imm : Byte) (i : Instr) (cond : Prop),
    (i = .seImm x imm ∧ (cond ↔ s.getV x = imm) ∨ i = .sneImm x imm ∧ (cond ↔ s.getV x ≠ imm) ∨
      i = .seReg x y ∧ (cond ↔ s.getV x = s.getV y) ∨ i = .sneReg x y ∧ (cond ↔ s.getV x ≠ s.getV y)) →
    ∃ t, exec i s = .next t ∧ OnlyPc s t ∧
      (cond → t.pc.toNat = (s.pc.toNat + 2) % 2 ^ 16) ∧ (¬ cond → t.pc = s.pc)

/-! ### The index register and memory transfer -/

/-- LD I,nnn (43_index_memory.md section 1; general knowledge, marked so there). -/
def Obligations.LoadIndexSetsTheAddress : Prop :=
  ∀ (s : State) (addr : Addr),
    ∃ t, exec (.ldI addr) s = .next t ∧ OnlyIndexAndRegs s t [] ∧ t.i.toNat = addr.toNat

/-- ADD I,Vx (43_index_memory.md section 1; the wrap is decision D7, the two-valued flag decision D28): VF says whether
the new I exceeds 0x0F00. -/
def Obligations.AddIndexFlagsTheThreshold : Prop :=
  ∀ (s : State) (x : Reg),
    ∃ t, exec (.addI x) s = .next t ∧ OnlyIndexAndRegs s t [0xF] ∧
      t.i.toNat = (s.i.toNat + (s.getV x).toNat) % 2 ^ 16 ∧ t.getV 0xF = if t.i.toNat > 0x0F00 then 1 else 0

/-- LD F,Vx (43_index_memory.md section 1; no mask is decision D15): I is 5 * V[x]; the five bytes at the glyph of
digit 0 are F0 90 90 90 F0 after construction with any font (20_memory.md section 4). -/
def Obligations.FontAddressIsFiveTimesTheDigit : Prop :=
  (∀ (s : State) (x : Reg),
    ∃ t, exec (.ldF x) s = .next t ∧ OnlyIndexAndRegs s t [] ∧ t.i.toNat = 5 * (s.getV x).toNat) ∧
  ∀ (q : Quirks) (font : Font),
    (State.construct q font).bytesAt (5 * 0) 5 = [0xF0, 0x90, 0x90, 0x90, 0xF0]

/-- LD B,Vx writes the hundreds, tens and ones of V[x] at I, I+1, I+2 and nothing else; past 0xFFF it faults before any
byte is written (43_index_memory.md section 2; the fault before the first write is decisions D8 and D17).  Memory is
canonical, as it is in every state a run reaches. -/
def Obligations.BcdStoreWritesThreeDigits : Prop :=
  ∀ (s : State) (x : Reg), Memory.wf s.font s.mem = true →
    (s.i.toNat + 2 ≤ 0xFFF →
      ∃ t, exec (.ldB x) s = .next t ∧ t = { s with mem := t.mem } ∧ SameRegsBut s t [] ∧
        SameBytesBut s t s.indexAddr 3 ∧
        (t.byteAt s.indexAddr).toNat = (s.getV x).toNat / 100 ∧
        (t.byteAt (s.indexAddr + 1)).toNat = (s.getV x).toNat / 10 % 10 ∧
        (t.byteAt (s.indexAddr + 2)).toNat = (s.getV x).toNat % 10) ∧
    (0xFFF < s.i.toNat + 2 → exec (.ldB x) s = .next (s.afterBadAccess (0xF#4 ++ x ++ 0x33#8)))

/-- LD [I],Vx stores V0..Vx at I..I+x and nothing else, and then advances I by x + 1 when Q_INDEX_INCREMENT; past 0xFFF
it faults before any byte is written (43_index_memory.md section 2; the wrap of I is decision D7, the fault before the
first write decisions D8 and D17).  Memory is canonical, as it is in every state a run reaches. -/
def Obligations.BlockStoreCopiesRegisters : Prop :=
  ∀ (s : State) (x : Reg), Memory.wf s.font s.mem = true →
    (s.i.toNat + x.toNat ≤ 0xFFF →
      ∃ t, exec (.store x) s = .next t ∧ t = { s with mem := t.mem, i := t.i } ∧ SameRegsBut s t [] ∧
        SameBytesBut s t s.indexAddr (x.toNat + 1) ∧
        (∀ r : Reg, r.toNat ≤ x.toNat → t.byteAt (s.indexAddr + r.toNat) = s.getV r) ∧
        (s.quirks.indexIncrement = true → t.i.toNat = (s.i.toNat + x.toNat + 1) % 2 ^ 16) ∧
        (s.quirks.indexIncrement = false → t.i = s.i)) ∧
    (0xFFF < s.i.toNat + x.toNat → exec (.store x) s = .next (s.afterBadAccess (0xF#4 ++ x ++ 0x55#8)))

/-- LD Vx,[I] loads V0..Vx from I..I+x and changes no other register and no byte of memory, and then advances I by x + 1
when Q_INDEX_INCREMENT; past 0xFFF it faults before any register is written (43_index_memory.md section 2; the wrap of I
is decision D7, the fault before the first write decisions D8 and D17). -/
def Obligations.BlockLoadCopiesMemory : Prop :=
  ∀ (s : State) (x : Reg),
    (s.i.toNat + x.toNat ≤ 0xFFF →
      ∃ t, exec (.load x) s = .next t ∧ t = { s with v := t.v, i := t.i } ∧ SameBytes s t ∧
        (∀ r : Reg, r.toNat ≤ x.toNat → t.getV r = s.byteAt (s.indexAddr + r.toNat)) ∧
        (∀ r : Reg, x.toNat < r.toNat → t.getV r = s.getV r) ∧
        (s.quirks.indexIncrement = true → t.i.toNat = (s.i.toNat + x.toNat + 1) % 2 ^ 16) ∧
        (s.quirks.indexIncrement = false → t.i = s.i)) ∧
    (0xFFF < s.i.toNat + x.toNat → exec (.load x) s = .next (s.afterBadAccess (0xF#4 ++ x ++ 0x65#8)))

/-! ### The display -/

/-- R260: CLS clears every pixel and leaves VF, REDRAW and everything else alone. -/
def Obligations.ClearScreenClearsEveryPixel : Prop :=
  ∀ (s : State) (u : Nibble),
    ∃ t, exec (.cls u) s = .next t ∧ t = { s with fb := t.fb } ∧ SameRegsBut s t [] ∧ SameBytes s t ∧
      ∀ x y, x < 64 → y < 32 → pixel t.fb x y = false

/-- DRW (44_display.md section 2; reading the coordinates before VF is reset is decision D16, the bit order general
knowledge, both marked so there): every pixel a 1 bit of the sprite covers is inverted and no other, with both axes
wrapped; VF is 1 exactly when a covered pixel was set; REDRAW is 1. -/
def Obligations.DrawXorsTheSpriteAndFlagsCollision : Prop :=
  ∀ (s : State) (x y : Reg) (n : Nibble), (n = 0 ∨ s.i.toNat + n.toNat ≤ 0x1000) →
    ∃ t, exec (.drw x y n) s = .next t ∧ t = { s with v := t.v, fb := t.fb, redraw := true } ∧
      SameRegsBut s t [0xF] ∧ SameBytes s t ∧
      (∀ px py, px < 64 → py < 32 → s.spriteCovers x y n.toNat px py → pixel t.fb px py = !pixel s.fb px py) ∧
      (∀ px py, px < 64 → py < 32 → ¬ s.spriteCovers x y n.toNat px py → pixel t.fb px py = pixel s.fb px py) ∧
      ((∃ px py, px < 64 ∧ py < 32 ∧ s.spriteCovers x y n.toNat px py ∧ pixel s.fb px py = true) →
        t.getV 0xF = 1) ∧
      ((∀ px py, px < 64 → py < 32 → s.spriteCovers x y n.toNat px py → pixel s.fb px py = false) →
        t.getV 0xF = 0)

/-- DRW of a sprite past 0xFFF faults before VF, FB or REDRAW change (44_display.md section 2, decisions D8 and D16). -/
def Obligations.DrawPastTheEndFaults : Prop :=
  ∀ (s : State) (x y : Reg) (n : Nibble), n ≠ 0 → 0x1000 < s.i.toNat + n.toNat →
    exec (.drw x y n) s = .next (s.afterBadAccess (0xD#4 ++ x ++ y ++ n))

/-! ### Timers, keys and random numbers -/

/-- LD Vx,DT, LD DT,Vx and LD ST,Vx (45_timers_keys_random.md section 1; general knowledge, marked so there). -/
def Obligations.TimerTransfers : Prop :=
  ∀ (s : State) (x : Reg),
    (∃ t, exec (.ldVxDt x) s = .next t ∧ OnlyRegs s t [x] ∧ t.getV x = s.dt) ∧
    (∃ t, exec (.ldDtVx x) s = .next t ∧ t = { s with dt := s.getV x } ∧ SameRegsBut s t [] ∧ SameBytes s t) ∧
    (∃ t, exec (.ldStVx x) s = .next t ∧ t = { s with st := s.getV x } ∧ SameRegsBut s t [] ∧ SameBytes s t)

/-- R285: LD Vx,K latches the lowest pressed key; with no key pressed it only rewinds PC by 2. -/
def Obligations.KeyWaitLatchesTheLowestKeyOrRewinds : Prop :=
  ∀ (s : State) (x : Reg),
    (∀ k, k < 16 → s.keyDown k = true → (∀ j, j < k → s.keyDown j = false) →
      ∃ t, exec (.ldVxK x) s = .next t ∧ OnlyRegs s t [x] ∧ (t.getV x).toNat = k) ∧
    ((∀ k, k < 16 → s.keyDown k = false) → exec (.ldVxK x) s = .next { s with pc := s.pc - 2 })

/-- SKP and SKNP (45_timers_keys_random.md section 2; the fault is decision D14): when V[x] names a key, PC advances by
an additional 2 exactly when that key is, or is not, pressed; a larger V[x] raises INVALID_KEY_INDEX. -/
def Obligations.KeySkipsTestTheNamedKey : Prop :=
  ∀ (s : State) (x : Reg) (k : Nat), k = (s.getV x).toNat →
    (k ≤ 0xF →
      (∃ t, exec (.skp x) s = .next t ∧ OnlyPc s t ∧ t.pc = if s.keyDown k = true then s.pc + 2 else s.pc) ∧
      (∃ t, exec (.sknp x) s = .next t ∧ OnlyPc s t ∧ t.pc = if s.keyDown k = true then s.pc else s.pc + 2)) ∧
    (0xF < k →
      exec (.skp x) s = .next
        { s with status := .faulted, fault := some (.invalidKeyIndex (0xE#4 ++ x ++ 0x9E#8) (s.pc - 2) (s.getV x)) } ∧
      exec (.sknp x) s = .next
        { s with status := .faulted, fault := some (.invalidKeyIndex (0xE#4 ++ x ++ 0xA1#8) (s.pc - 2) (s.getV x)) })

/-- RND Vx,kk (45_timers_keys_random.md section 3; the random byte is an input of the step, decision D22, and the AND is
general knowledge, both marked so there): in the execute phase for every random byte (held in State, log 4), and in a step for the
byte the host supplies (log 3). -/
def Obligations.RandomIsTheInputByteMasked : Prop :=
  (∀ (s : State) (x : Reg) (imm : Byte),
    ∃ t, exec (.rnd x imm) s = .next t ∧ OnlyRegs s t [x] ∧
      ∀ b, b < 8 → (t.getV x).getLsbD b = (s.rnd.getLsbD b && imm.getLsbD b)) ∧
  ∀ (s : State) (x : Reg) (imm : Byte) (input : StepInput), s.fetchesInstr (.rnd x imm) →
    ∃ t, stepWith input s = .next t ∧ t.getV x = input.rnd &&& imm

/-! ### Reset and the host -/

/-- Construction sets every piece of state (10_state.md section 13; the values of I, KEYS, REDRAW, STATUS, FAULT are
decision D19, that of STARTED decision D23). -/
def Obligations.ConstructionValues : Prop :=
  ∀ (q : Quirks) (font : Font) (s : State), s = State.construct q font →
    s.bytesAt 0 5 = [0xF0, 0x90, 0x90, 0x90, 0xF0] ∧ (∀ k, (h : k < 75) → s.byteAt (5 + k) = font[k]) ∧
    (∀ a, 0x050 ≤ a → a ≤ 0xFFF → s.byteAt a = 0) ∧ (∀ r, s.getV r = 0) ∧ s.i = 0 ∧ s.pc = 0x200 ∧
    (∀ k, s.slot k = 0) ∧ s.sp.val = 0 ∧ s.dt = 0 ∧ s.st = 0 ∧ (∀ x y, x < 64 → y < 32 → pixel s.fb x y = false) ∧
    (∀ k, k < 16 → s.keyDown k = false) ∧ s.redraw = false ∧ s.status = .running ∧ s.fault = none ∧
    s.started = false ∧ s.quirks = q

/-- load_program (70_reset_and_hazards.md section 2; decisions D11 and D23): the bytes verbatim from 0x200, or
LOAD_TOO_LARGE with memory unchanged, accepted only before the first step of a running engine; an accepted load keeps
the invariant. -/
def Obligations.LoadProgramCopiesOrRejects : Prop :=
  ∀ (s : State) (bytes : List Byte),
    (s.status = .running → s.started = false → bytes.length ≤ 3584 → Inv s →
      ∃ t, loadProgram bytes s = .next (.ok, t) ∧ t = { s with mem := t.mem } ∧ Inv t ∧
        (∀ k, (h : k < bytes.length) → t.byteAt (0x200 + k) = bytes[k]) ∧ SameBytesBut s t 0x200 bytes.length) ∧
    (s.status = .running → s.started = false → 3584 < bytes.length →
      loadProgram bytes s = .next
        (.loadTooLarge, { s with status := .loadFailed, fault := some (.loadTooLarge bytes.length) })) ∧
    ((s.status ≠ .running ∨ s.started = true) → loadProgram bytes s = .refused .loadNotAccepted)

/-- The clean-entry state of a program (70_reset_and_hazards.md section 3): construction and a successful load leave a
running engine at 0x200 with every register 0, the program at 0x200, and the invariant. -/
def Obligations.CleanEntryState : Prop :=
  ∀ (q : Quirks) (font : Font) (program : List Byte) (s : State), CleanEntry q font program s →
    s.status = .running ∧ s.fault = none ∧ s.started = false ∧ s.redraw = false ∧ s.pc = 0x200 ∧
    (∀ r, s.getV r = 0) ∧ s.quirks = q ∧ program.length ≤ 3584 ∧
    (∀ k, (h : k < program.length) → s.byteAt (0x200 + k) = program[k]) ∧ Inv s

/-- The host's reads (10_state.md section 14; decisions D20 and D32): peek returns the byte of an address that exists
and OUT_OF_RANGE above 0xFFF; the read port shows FB row-major, pixel (x, y) at y * 64 + x, the six switches at bits 0
to 5 (10_state.md section 11, decision D2) and the other state as it is; clear_redraw changes REDRAW alone. -/
def Obligations.HostReadsWithoutSideEffect : Prop :=
  ∀ s : State,
    (∀ a, a ≤ 0xFFF → peek s a = .byte (s.byteAt a)) ∧ (∀ a, 0xFFF < a → peek s a = .outOfRange) ∧
    (readPort s).fb.length = 2048 ∧
    (∀ x y, x < 64 → y < 32 → (readPort s).fb[y * 64 + x]? = some (pixel s.fb x y)) ∧
    ((readPort s).quirks.getLsbD 0 = s.quirks.vfReset ∧ (readPort s).quirks.getLsbD 1 = s.quirks.indexIncrement ∧
      (readPort s).quirks.getLsbD 2 = s.quirks.shiftUsesVx ∧ (readPort s).quirks.getLsbD 3 = s.quirks.jumpUsesVx ∧
      (readPort s).quirks.getLsbD 4 = s.quirks.clipping ∧ (readPort s).quirks.getLsbD 5 = s.quirks.displayWait) ∧
    ((readPort s).redraw = s.redraw ∧ (readPort s).status = s.status ∧ (readPort s).fault = s.fault ∧
      (readPort s).v = s.v ∧ (readPort s).i = s.i ∧ (readPort s).pc = s.pc ∧ (readPort s).sp = s.sp ∧
      (readPort s).stack = s.stack ∧ (readPort s).dt = s.dt ∧ (readPort s).st = s.st ∧ (readPort s).keys = s.keys) ∧
    clearRedraw s = { s with redraw := false }
end

