-- ==== Sys2Proof/Laws/Memory.lean ====
section
/-!
SUPPORT. The laws of memory: read after write, the canonical form kept by every operation, and what MemRead and
MemWrite do (spec/20_memory.md R73 to R75, R79, R82).
-/

namespace Sys2Proof.Machine

variable {font : Font} {m : Memory} {a a' : Nat} {b : Byte}

/-! ### Canonical memory -/

theorem Memory.wf_cons {k : Nat} {c : Byte} :
    Memory.wf font ((k, c) :: m) = true ↔
      k < 4096 ∧ c ≠ unlistedByte font k ∧ (∀ e ∈ m, k < e.1) ∧ Memory.wf font m = true := by
  simp only [Memory.wf, Bool.and_eq_true, decide_eq_true_eq, bne_iff_ne, List.all_eq_true, and_assoc]

/-- An address below every listed one is unlisted. -/
theorem memByte_of_below (h : ∀ e ∈ m, a < e.1) : memByte font m a = unlistedByte font a := by
  induction m with
  | nil => rfl
  | cons e m ih =>
    have hk : a ≠ e.1 := Nat.ne_of_lt (h e (by simp))
    simp only [memByte, if_neg hk]
    exact ih fun e he => h e (by simp [he])

/-- A write leaves every other address alone (R79). -/
theorem memByte_memSet_other (h : a' ≠ a) : memByte font (memSet font m a b) a' = memByte font m a' := by
  induction m with
  | nil => by_cases hb : b = unlistedByte font a <;> simp [memSet, memByte, hb, h]
  | cons e m ih =>
    obtain ⟨k, c⟩ := e
    by_cases hlt : a < k
    · by_cases hb : b = unlistedByte font a <;> simp [memSet, memByte, hlt, hb, h]
    · by_cases hk : a = k
      · subst hk
        by_cases hb : b = unlistedByte font a <;> simp [memSet, memByte, hb, h]
      · simp only [memSet, if_neg hlt, if_neg hk, memByte, ih]

/-- A read of the address written gives the byte written (R82). -/
theorem memByte_memSet_self (wf : Memory.wf font m = true) : memByte font (memSet font m a b) a = b := by
  induction m with
  | nil => by_cases hb : b = unlistedByte font a <;> simp [memSet, memByte, hb]
  | cons e m ih =>
    obtain ⟨k, c⟩ := e
    obtain ⟨-, -, above, wfm⟩ := Memory.wf_cons.mp wf
    by_cases hlt : a < k
    · have below : ∀ e ∈ m, a < e.1 := fun e he => Nat.lt_trans hlt (above e he)
      by_cases hb : b = unlistedByte font a
      · rw [memSet, if_pos hlt, if_pos hb, memByte, if_neg (Nat.ne_of_lt hlt), memByte_of_below below, hb]
      · simp [memSet, memByte, hlt, hb]
    · by_cases hk : a = k
      · subst hk
        by_cases hb : b = unlistedByte font a
        · rw [memSet, if_neg (Nat.lt_irrefl a), if_pos rfl, if_pos hb, memByte_of_below above, hb]
        · simp [memSet, memByte, hb]
      · simp only [memSet, if_neg hlt, if_neg hk, memByte, ih wfm]

/-- Read after write, both ways. -/
theorem memByte_memSet (wf : Memory.wf font m = true) :
    memByte font (memSet font m a b) a' = if a' = a then b else memByte font m a' := by
  by_cases h : a' = a
  · subst h; simp [memByte_memSet_self wf]
  · simp [h, memByte_memSet_other h]

/-- A write lists no address but its own and those listed before. -/
theorem mem_memSet {e : Host.Cell} (h : e ∈ memSet font m a b) : e.1 = a ∨ e ∈ m := by
  induction m with
  | nil =>
    simp only [memSet] at h
    split at h
    · exact .inr h
    · exact .inl (by rw [List.mem_singleton.mp h])
  | cons d m ih =>
    obtain ⟨k, c⟩ := d
    rw [memSet] at h
    split at h
    · split at h
      · exact .inr h
      · exact (List.mem_cons.mp h).imp (fun h => by rw [h]) id
    · split at h
      · split at h
        · exact .inr (List.mem_cons_of_mem _ h)
        · exact (List.mem_cons.mp h).imp (fun h => by rw [h]) (List.mem_cons_of_mem _)
      · rcases List.mem_cons.mp h with h | h
        · exact .inr (by rw [h]; simp)
        · exact (ih h).imp id (List.mem_cons_of_mem _)

/-- A write keeps the canonical form. -/
theorem memSet_wf (wf : Memory.wf font m = true) (ha : a < 4096) : Memory.wf font (memSet font m a b) = true := by
  induction m with
  | nil =>
    rw [memSet]
    split
    · rfl
    · exact Memory.wf_cons.mpr ⟨ha, ‹_›, by simp, rfl⟩
  | cons e m ih =>
    obtain ⟨k, c⟩ := e
    obtain ⟨hk, hc, above, wfm⟩ := Memory.wf_cons.mp wf
    rw [memSet]
    split
    · rename_i hlt
      split
      · exact wf
      · refine Memory.wf_cons.mpr ⟨ha, ‹_›, fun e he => ?_, wf⟩
        rcases List.mem_cons.mp he with rfl | he
        · exact hlt
        · exact Nat.lt_trans hlt (above e he)
    · rename_i hlt
      split
      · rename_i heq
        subst heq
        split
        · exact wfm
        · exact Memory.wf_cons.mpr ⟨ha, ‹_›, above, wfm⟩
      · rename_i hne
        refine Memory.wf_cons.mpr ⟨hk, hc, fun e he => ?_, ih wfm⟩
        rcases mem_memSet he with h | h
        · omega
        · exact above e h

/-- Writing bytes at existing addresses keeps the canonical form. -/
theorem memSetBytes_wf {bs : List Byte} (wf : Memory.wf font m = true) (ha : a + bs.length ≤ 4096) :
    Memory.wf font (memSetBytes font m a bs) = true := by
  induction bs generalizing m a with
  | nil => exact wf
  | cons b bs ih =>
    simp only [List.length_cons] at ha
    exact ih (memSet_wf wf (by omega)) (by omega)

/-- Bytes written at an address leave every address outside their range alone. -/
theorem memByte_memSetBytes_other {bs : List Byte} (h : a' < a ∨ a + bs.length ≤ a') :
    memByte font (memSetBytes font m a bs) a' = memByte font m a' := by
  induction bs generalizing m a with
  | nil => rfl
  | cons b bs ih =>
    simp only [List.length_cons] at h
    rw [memSetBytes, ih (by omega), memByte_memSet_other (by omega)]

/-- Byte `k` of the bytes written is read back at offset `k` (R74). -/
theorem memByte_memSetBytes {bs : List Byte} (wf : Memory.wf font m = true) (ha : a + bs.length ≤ 4096) {k : Nat}
    (hk : k < bs.length) : memByte font (memSetBytes font m a bs) (a + k) = bs[k] := by
  induction bs generalizing m a k with
  | nil => simp at hk
  | cons b bs ih =>
    simp only [List.length_cons] at ha hk
    cases k with
    | zero => rw [memSetBytes, memByte_memSetBytes_other (by omega)]; exact memByte_memSet_self wf
    | succ k =>
      rw [memSetBytes, show a + (k + 1) = a + 1 + k by omega]
      exact ih (memSet_wf wf (by omega)) (by omega) (by omega)

/-! ### MemRead and MemWrite -/

/-- The bound of R73: a range is inside when it is empty or ends at 0xFFF or below. -/
theorem inBounds_iff {addr n : Nat} : inBounds addr n = true ↔ n = 0 ∨ addr + n ≤ 4096 := by
  simp only [inBounds, Config.memSize, Bool.or_eq_true, beq_iff_eq, decide_eq_true_eq]
  omega

@[simp] theorem State.bytesAt_length (s : State) (addr n : Nat) : (s.bytesAt addr n).length = n := by
  simp [State.bytesAt]

@[simp] theorem State.bytesAt_getElem (s : State) (addr n k : Nat) (h : k < (s.bytesAt addr n).length) :
    (s.bytesAt addr n)[k] = s.byteAt (addr + k) := by
  simp [State.bytesAt]

/-- Everything MemRead can do (R73). -/
theorem State.memRead_cases (s : State) (addr n : Nat) :
    ((n = 0 ∨ addr + n ≤ 4096) ∧ s.memRead addr n = some (s.bytesAt addr n)) ∨
      (0 < n ∧ 4096 < addr + n ∧ s.memRead addr n = none) := by
  by_cases h : inBounds addr n = true
  · exact .inl ⟨inBounds_iff.mp h, by simp [State.memRead, h]⟩
  · have h' := mt inBounds_iff.mpr h
    exact .inr ⟨by omega, by omega, by simp [State.memRead, h]⟩

theorem State.memRead_inside {s : State} {addr n : Nat} (h : n = 0 ∨ addr + n ≤ 4096) :
    s.memRead addr n = some (s.bytesAt addr n) := by
  rw [State.memRead, if_pos (inBounds_iff.mpr h)]

theorem State.memRead_outside {s : State} {addr n : Nat} (hn : 0 < n) (h : 4096 < addr + n) :
    s.memRead addr n = none := by
  rw [State.memRead, if_neg (mt inBounds_iff.mp (by omega))]

theorem State.memWrite_inside {s : State} {addr : Nat} {bs : List Byte} (h : bs = [] ∨ addr + bs.length ≤ 4096) :
    s.memWrite addr bs = some (s.setMem (memSetBytes s.font s.mem addr bs)) := by
  rw [State.memWrite, if_pos (inBounds_iff.mpr (h.imp (fun h => by rw [h]; rfl) id))]

theorem State.memWrite_outside {s : State} {addr : Nat} {bs : List Byte} (hn : 0 < bs.length)
    (h : 4096 < addr + bs.length) : s.memWrite addr bs = none := by
  rw [State.memWrite, if_neg (mt inBounds_iff.mp (by omega))]

/-- Everything MemWrite can do (R74, R75). -/
theorem State.memWrite_cases (s : State) (addr : Nat) (bs : List Byte) :
    ((bs.length = 0 ∨ addr + bs.length ≤ 4096) ∧
        s.memWrite addr bs = some (s.setMem (memSetBytes s.font s.mem addr bs))) ∨
      (0 < bs.length ∧ 4096 < addr + bs.length ∧ s.memWrite addr bs = none) := by
  by_cases h : inBounds addr bs.length = true
  · exact .inl ⟨inBounds_iff.mp h, by rw [State.memWrite, if_pos h]⟩
  · have h' := mt inBounds_iff.mpr h
    exact .inr ⟨by omega, by omega, by rw [State.memWrite, if_neg h]⟩

/-- A byte reads the same in two states of the same memory and font. -/
theorem State.byteAt_congr {s t : State} (hf : t.font = s.font) (hm : t.mem = s.mem) (a : Nat) :
    t.byteAt a = s.byteAt a := by
  rw [State.byteAt, State.byteAt, hf, hm]

end Sys2Proof.Machine
end

