-- ==== Sys2Proof/Laws/Ops.lean ====
section
/-!
SUPPORT. What each shared operation over registers, stack, PC, timers and keys does, once, for the provers to cite.
-/

namespace Sys2Proof.Machine

variable (s : State)

/-! ### General registers -/

/-- Register after write (R31): no register is hard-wired, none aliases another. -/
theorem State.getV_setV (x r : Reg) (b : Byte) : (s.setV x b).getV r = if r = x then b else s.getV r := by
  simp only [State.getV, State.setV, Vector.getElem_set]
  by_cases h : r = x
  · simp [h]
  · rw [if_neg (fun e => h (BitVec.eq_of_toNat_eq e.symm)), if_neg h]

@[simp] theorem State.getV_setV_self (x : Reg) (b : Byte) : (s.setV x b).getV x = b := by
  simp [State.getV_setV]

theorem State.getV_setV_other {x r : Reg} (h : r ≠ x) (b : Byte) : (s.setV x b).getV r = s.getV r := by
  simp [State.getV_setV, h]

/-- A register reads the same in two states of the same register file. -/
theorem State.getV_congr {s t : State} (h : t.v = s.v) (r : Reg) : t.getV r = s.getV r := by
  simp only [State.getV, h]

/-- Setting registers is replacing the register file. -/
theorem State.setV_eq (x : Reg) (b : Byte) : s.setV x b = { s with v := (s.setV x b).v } := rfl

/-- `V[x]` first, VF last (R160): VF ends as the flag, every other register as the write of V[x] left it. -/
theorem State.getV_setVThenFlag (x r : Reg) (b : Byte) (flag : Bool) :
    (s.setVThenFlag x b flag).getV r = if r = vf then flagByte flag else if r = x then b else s.getV r := by
  rw [State.setVThenFlag, State.setVF, State.getV_setV, State.getV_setV]

/-- The quirk's forced reset of VF (R164). -/
theorem State.getV_vfResetQuirk (r : Reg) :
    s.vfResetQuirk.getV r = if s.quirks.vfReset = true ∧ r = vf then 0 else s.getV r := by
  rw [State.vfResetQuirk]
  by_cases q : s.quirks.vfReset = true
  · rw [if_pos q, State.setVF, State.getV_setV]
    simp [q, flagByte]
  · simp [q]

theorem State.vfResetQuirk_eq : s.vfResetQuirk = { s with v := s.vfResetQuirk.v } := by
  rw [State.vfResetQuirk]
  split <;> rfl

theorem State.setVs_eq (k : Nat) (bs : List Byte) : s.setVs k bs = { s with v := (s.setVs k bs).v } := by
  induction bs generalizing s k with
  | nil => rfl
  | cons b bs ih => rw [State.setVs, ih]; rfl

/-- Registers loaded from `k` on (R237), while they exist. -/
theorem State.getV_setVs (k : Nat) (bs : List Byte) (h : k + bs.length ≤ 16) (r : Reg) :
    (s.setVs k bs).getV r =
      if hr : k ≤ r.toNat ∧ r.toNat < k + bs.length then bs[r.toNat - k]'(by omega) else s.getV r := by
  induction bs generalizing s k with
  | nil => rw [State.setVs, dif_neg (by simp)]
  | cons b bs ih =>
    simp only [List.length_cons] at h ⊢
    rw [State.setVs, ih _ _ (by omega), State.getV_setV]
    have hk : r = BitVec.ofNat 4 k ↔ r.toNat = k := by
      constructor
      · intro e
        rw [e, BitVec.toNat_ofNat]
        omega
      · intro e
        apply BitVec.eq_of_toNat_eq
        rw [BitVec.toNat_ofNat, e]
        omega
    by_cases hr : r.toNat = k
    · have hk' := hk.mpr hr
      rw [dif_neg (by omega), if_pos hk', dif_pos (by omega)]
      simp [hr]
    · by_cases hin : k + 1 ≤ r.toNat ∧ r.toNat < k + 1 + bs.length
      · rw [dif_pos hin, dif_pos (by omega), List.getElem_cons, dif_neg (by omega)]
        congr 1
      · rw [dif_neg hin, dif_neg (by omega), if_neg (mt hk.mp hr)]

@[simp] theorem State.getVs_length (n : Nat) : (s.getVs n).length = n := by simp [State.getVs]

@[simp] theorem State.getVs_getElem (n k : Nat) (h : k < (s.getVs n).length) :
    (s.getVs n)[k] = s.getV (BitVec.ofNat 4 k) := by simp [State.getVs]

/-! ### PC -/

/-- A skip moves PC by 2 or not at all (R216). -/
theorem State.skipIf_eq (c : Bool) : s.skipIf c = { s with pc := if c then s.pc + 2 else s.pc } := by
  cases c <;> rfl

/-! ### The call stack -/

/-- SP stays in its range (R38): the bound of its type, STACK_DEPTH written out. -/
theorem State.sp_le : s.sp.val ≤ 16 := Nat.le_of_lt_succ s.sp.isLt

/-- Everything a push can do (R38). -/
theorem State.push_cases (w : Word) :
    (∃ h : s.sp.val < 16, s.push w =
        some { s with stack := s.stack.set s.sp.val w h, sp := ⟨s.sp.val + 1, Nat.succ_lt_succ h⟩ }) ∨
      (s.sp.val = 16 ∧ s.push w = none) := by
  by_cases h : s.sp.val < 16
  · exact .inl ⟨h, by rw [State.push, dif_pos h]⟩
  · exact .inr ⟨Nat.le_antisymm s.sp_le (Nat.le_of_not_lt h), by rw [State.push, dif_neg h]⟩

/-- Everything a pop can do (R38). -/
theorem State.pop_cases :
    (∃ h : 0 < s.sp.val, s.pop =
        some (s.slot ⟨s.sp.val - 1, by omega⟩, { s with sp := ⟨s.sp.val - 1, by omega⟩ })) ∨
      (s.sp.val = 0 ∧ s.pop = none) := by
  by_cases h : 0 < s.sp.val
  · exact .inl ⟨h, by rw [State.pop, dif_pos h]⟩
  · exact .inr ⟨by omega, by rw [State.pop, dif_neg h]⟩

/-! ### Timers and keys -/

/-- One count of a timer: down by one, floor 0 (R142). -/
theorem countdown_eq (t : Byte) : countdown t = BitVec.ofNat 8 (t.toNat - 1) := by
  apply BitVec.eq_of_toNat_eq
  rw [countdown]
  split
  · rename_i h; subst h; rfl
  · rename_i h
    have h0 : t.toNat ≠ 0 := fun e => h (BitVec.eq_of_toNat_eq e)
    have := t.isLt
    have one : (1 : Byte).toNat = 1 := rfl
    simp only [BitVec.toNat_sub, BitVec.toNat_ofNat, one]
    omega

/-- A register value names a key exactly when it is 0x0..0xF (R286). -/
theorem namesKey_iff {b : Byte} : namesKey b = true ↔ b.toNat ≤ 0xF := by
  rw [namesKey, decide_eq_true_eq]
  exact Nat.lt_succ_iff

/-- No key is found exactly when none is pressed (R285). -/
theorem firstKey_eq_none {keys : BitVec 16} : firstKey keys = none ↔ ∀ k < 16, keys.getLsbD k = false := by
  simp [firstKey]

/-- The key found is pressed and every lower one is not (R285). -/
theorem firstKey_eq_some {keys : BitVec 16} {k : Nat} :
    firstKey keys = some k ↔ k < 16 ∧ keys.getLsbD k = true ∧ ∀ j < k, keys.getLsbD j = false := by
  rw [firstKey, List.find?_range_eq_some]
  simp [and_left_comm]

/-! ### Faults -/

/-- The first address out of bounds of a range that starts at a 16-bit value (R73, R312). -/
theorem firstBadAddr_toNat (w : Word) : firstBadAddr w.toNat = if w.toNat < 0x1000 then 0x1000 else w := by
  have := w.isLt
  rw [firstBadAddr, Config.memSize]
  split
  · rw [Nat.max_eq_right (by omega)]; rfl
  · rw [Nat.max_eq_left (by omega), BitVec.ofNat_toNat, BitVec.setWidth_eq]

/-- Raising the fault of an access at I (R312, R315) changes STATUS and FAULT alone. -/
theorem raiseFault_accessFault (op : Word) :
    raiseFault (accessFault op s.indexAddr s) s = .next (s.afterBadAccess op) := by
  rw [raiseFault, accessFault, State.indexAddr, firstBadAddr_toNat]
  rfl

/-- VF is register 0xF (R32). -/
theorem vf_eq : vf = 0xF := rfl

/-- The flag byte is 0 or 1. -/
theorem flagByte_eq (b : Bool) : flagByte b = if b then 1 else 0 := rfl

end Sys2Proof.Machine
end

