-- ==== Sys2Proof/Laws/Display.lean ====
section
/-!
SUPPORT. What drawing a sprite does (spec/44_display.md R261 to R263), once: each pixel ends as itself XOR whether a 1
bit of the sprite covers it, and the collision is whether a covered pixel was set.
-/

namespace Sys2Proof.Machine

/-- The pixels of the screen by their coordinates: a pixel is read at its coordinates modulo the screen. -/
theorem pixel_mod (fb : Framebuffer) (x y : Nat) : pixel fb (x % 64) (y % 32) = pixel fb x y := by
  simp [pixel]

theorem pixel_clearedFb (x y : Nat) : pixel clearedFb x y = false := by
  simp [pixel, clearedFb]

/-- A toggle inverts its own pixel and no other (R262). -/
theorem pixel_togglePixel (fb : Framebuffer) (x y px py : Nat) :
    pixel (togglePixel fb x y) px py =
      if px % 64 = x % 64 ∧ py % 32 = y % 32 then !pixel fb px py else pixel fb px py := by
  simp only [pixel, togglePixel, Vector.getElem_set]
  by_cases hy : py % 32 = y % 32
  · by_cases hx : px % 64 = x % 64
    · simp [hx, hy]
    · simp [hx, hy, Ne.symm hx]
  · simp [hy, Ne.symm hy]

/-- One sprite bit (R262). -/
theorem pixel_drawBit (x y : Nat) (bit : Bool) (acc : Framebuffer × Bool) (px py : Nat) :
    pixel (drawBit x y bit acc).1 px py =
      (pixel acc.1 px py ^^ (bit && decide (px % 64 = x % 64) && decide (py % 32 = y % 32))) := by
  cases bit
  · simp [drawBit]
  · simp only [drawBit, if_true, pixel_togglePixel]
    by_cases hx : px % 64 = x % 64 <;> by_cases hy : py % 32 = y % 32 <;> simp [hx, hy]

theorem collision_drawBit (x y : Nat) (bit : Bool) (acc : Framebuffer × Bool) :
    (drawBit x y bit acc).2 = (acc.2 || (bit && pixel acc.1 x y)) := by
  cases bit <;> simp [drawBit]

/-- Whether a 1 bit among the columns `cs` of row byte `b`, drawn from column `vx`, lands on column `px`. -/
def colsCover (vx px : Nat) (b : Byte) (cs : List Nat) : Bool :=
  cs.any fun c => b.getLsbD (7 - c) && decide (px % 64 = (vx + c) % 64)

/-- One sprite row (R262): columns that land on distinct screen columns toggle independently. -/
theorem drawCols_spec (vx y : Nat) (b : Byte) (cs : List Nat) (acc : Framebuffer × Bool) (nodup : cs.Nodup)
    (small : ∀ c ∈ cs, c < 64) :
    (∀ px py, pixel (drawCols vx y b cs acc).1 px py =
        (pixel acc.1 px py ^^ (colsCover vx px b cs && decide (py % 32 = y % 32)))) ∧
      ((drawCols vx y b cs acc).2 = true ↔
        acc.2 = true ∨ ∃ c ∈ cs, b.getLsbD (7 - c) = true ∧ pixel acc.1 (vx + c) y = true) := by
  induction cs generalizing acc with
  | nil => simp [drawCols, colsCover]
  | cons c cs ih =>
    obtain ⟨hc, nodup⟩ := List.nodup_cons.mp nodup
    have small' : ∀ d ∈ cs, d < 64 := fun d hd => small d (List.mem_cons_of_mem _ hd)
    have apart : ∀ d ∈ cs, (vx + d) % 64 ≠ (vx + c) % 64 := by
      intro d hd h
      have h1 := small' d hd
      have h2 := small c List.mem_cons_self
      have : d ≠ c := fun e => hc (e ▸ hd)
      omega
    obtain ⟨ihp, ihc⟩ := ih (drawBit (vx + c) y (b.getLsbD (7 - c)) acc) nodup small'
    constructor
    · intro px py
      rw [drawCols, ihp, pixel_drawBit]
      have excl : decide (px % 64 = (vx + c) % 64) = true → colsCover vx px b cs = false := by
        intro h
        rw [colsCover, List.any_eq_false]
        intro d hd
        have hne : px % 64 ≠ (vx + d) % 64 := by
          rw [of_decide_eq_true h]
          exact (apart d hd).symm
        simp [hne]
      simp only [colsCover, List.any_cons] at excl ⊢
      cases hp : decide (px % 64 = (vx + c) % 64)
      · simp
      · rw [excl hp]; cases b.getLsbD (7 - c) <;> simp
    · rw [drawCols, ihc, collision_drawBit]
      have same : ∀ d ∈ cs, pixel (drawBit (vx + c) y (b.getLsbD (7 - c)) acc).1 (vx + d) y = pixel acc.1 (vx + d) y := by
        intro d hd
        rw [pixel_drawBit]
        simp [apart d hd]
      simp only [Bool.or_eq_true, Bool.and_eq_true, List.exists_mem_cons_iff, or_assoc]
      refine or_congr_right (or_congr_right ?_)
      exact exists_congr fun d => and_congr_right fun hd => and_congr_right fun _ => by rw [same d hd]

/-- Whether a 1 bit of the sprite rows drawn from screen row `vy` lands on pixel (px, py) (R261). -/
def rowsCover (vx px py : Nat) : Nat → List Byte → Bool
  | _, [] => false
  | vy, b :: bs =>
    (colsCover vx px b (List.range 8) && decide (py % 32 = vy % 32)) || rowsCover vx px py (vy + 1) bs

theorem rowsCover_iff (vx px py vy : Nat) (rows : List Byte) :
    rowsCover vx px py vy rows = true ↔
      ∃ r c, ∃ h : r < rows.length, c < 8 ∧ px % 64 = (vx + c) % 64 ∧ py % 32 = (vy + r) % 32 ∧
        rows[r].getLsbD (7 - c) = true := by
  induction rows generalizing vy with
  | nil => simp [rowsCover]
  | cons b bs ih =>
    simp only [rowsCover, Bool.or_eq_true, Bool.and_eq_true, ih, colsCover, List.any_eq_true, List.mem_range,
      decide_eq_true_eq]
    constructor
    · rintro (⟨⟨c, hc, hb, hx⟩, hy⟩ | ⟨r, c, h, hc, hx, hy, hb⟩)
      · exact ⟨0, c, by simp, hc, hx, hy, hb⟩
      · exact ⟨r + 1, c, by simpa using h, hc, hx, by rw [hy]; congr 1; omega, hb⟩
    · rintro ⟨r, c, h, hc, hx, hy, hb⟩
      cases r with
      | zero => exact .inl ⟨⟨c, hc, hb, hx⟩, hy⟩
      | succ r => exact .inr ⟨r, c, by simpa using h, hc, hx, by rw [hy]; congr 1; omega, hb⟩

/-- A row a sprite does not reach is not covered. -/
theorem rowsCover_row (vx px py vy : Nat) (rows : List Byte) (h : rowsCover vx px py vy rows = true) :
    ∃ r < rows.length, py % 32 = (vy + r) % 32 := by
  obtain ⟨r, -, h, -, -, hy, -⟩ := (rowsCover_iff ..).mp h
  exact ⟨r, h, hy⟩

/-- Drawing at most 32 rows (R262, R263): each pixel is toggled exactly when a 1 bit covers it, and the collision is
that a covered pixel was set. -/
theorem drawRows_spec (vx vy : Nat) (rows : List Byte) (acc : Framebuffer × Bool) (short : rows.length ≤ 32) :
    (∀ px py, pixel (drawRows vx vy rows acc).1 px py = (pixel acc.1 px py ^^ rowsCover vx px py vy rows)) ∧
      ((drawRows vx vy rows acc).2 = true ↔
        acc.2 = true ∨ ∃ px py, rowsCover vx px py vy rows = true ∧ pixel acc.1 px py = true) := by
  induction rows generalizing vy acc with
  | nil => simp [drawRows, rowsCover]
  | cons b bs ih =>
    simp only [List.length_cons] at short
    obtain ⟨rowp, rowc⟩ := drawCols_spec vx vy b (List.range 8) acc List.nodup_range
      (fun c hc => Nat.lt_trans (List.mem_range.mp hc) (by decide))
    obtain ⟨ihp, ihc⟩ := ih (vy + 1) (drawCols vx vy b (List.range 8) acc) (by omega)
    have apart : ∀ px py, rowsCover vx px py (vy + 1) bs = true → py % 32 ≠ vy % 32 := by
      intro px py h
      obtain ⟨r, hr, hy⟩ := rowsCover_row _ _ _ _ _ h
      omega
    constructor
    · intro px py
      rw [drawRows, ihp, rowp, rowsCover]
      cases hc : rowsCover vx px py (vy + 1) bs
      · simp
      · simp [apart px py hc]
    · rw [drawRows, ihc, rowc]
      constructor
      · rintro ((h | ⟨c, hc, hb, hp⟩) | ⟨px, py, hc, hp⟩)
        · exact .inl h
        · refine .inr ⟨vx + c, vy, ?_, hp⟩
          rw [rowsCover, Bool.or_eq_true, Bool.and_eq_true]
          exact .inl ⟨List.any_eq_true.mpr ⟨c, hc, by simp [hb]⟩, by simp⟩
        · refine .inr ⟨px, py, by simp [rowsCover, hc], ?_⟩
          rw [rowp] at hp
          simpa [apart px py hc] using hp
      · rintro (h | ⟨px, py, hc, hp⟩)
        · exact .inl (.inl h)
        · rw [rowsCover, Bool.or_eq_true, Bool.and_eq_true] at hc
          rcases hc with ⟨hc, hy⟩ | hc
          · obtain ⟨c, hm, hb⟩ := List.any_eq_true.mp hc
            simp only [Bool.and_eq_true, decide_eq_true_eq] at hb hy
            refine .inl (.inr ⟨c, hm, hb.1, ?_⟩)
            rw [← pixel_mod, ← hb.2, ← hy, pixel_mod]
            exact hp
          · refine .inr ⟨px, py, hc, ?_⟩
            rw [rowp]
            simpa [apart px py hc] using hp

end Sys2Proof.Machine
end

