-- ==== Sys2Proof/Laws/Step.lean ====
section
/-!
SUPPORT. What a step can do, said once (spec/40_step_cycle.md R140, spec/60_exceptions.md R319), and the state its
execute phase starts from.
-/

namespace Sys2Proof.Machine

variable {s t : State}

/-- What a step does before its fetch leaves PC, memory, STATUS, registers and stack alone (R140). -/
theorem State.beginStep_eq (s : State) :
    s.beginStep =
      { s with
        started := true
        keys := s.nextInput.keys
        rnd := s.nextInput.rnd
        inputs := s.inputs.tail
        inputNo := s.inputNo + 1
        dt := BitVec.ofNat 8 (s.dt.toNat - 1)
        st := BitVec.ofNat 8 (s.st.toNat - 1) } := by
  rw [← countdown_eq, ← countdown_eq]
  rfl

/-- The execute phase starts from the state R140 gives field by field. -/
theorem State.atExecute_eq (s : State) : s.beginStep.advancePc = s.atExecute := by
  rw [State.beginStep_eq]
  rfl

@[simp] theorem State.beginStep_pc (s : State) : s.beginStep.pc = s.pc := rfl

@[simp] theorem State.beginStep_byteAt (s : State) (a : Nat) : s.beginStep.byteAt a = s.byteAt a := rfl

@[simp] theorem State.atExecute_byteAt (s : State) (a : Nat) : s.atExecute.byteAt a = s.byteAt a := rfl

@[simp] theorem State.atExecute_getV (s : State) (r : Reg) : s.atExecute.getV r = s.getV r := rfl

@[simp] theorem State.atExecute_slot (s : State) (k : Fin 16) : s.atExecute.slot k = s.slot k := rfl

/-- Everything the fetch can do (R144, R145). -/
theorem State.fetchWord_cases (s : State) :
    (s.pc.toNat ≤ 0xFFE ∧ s.fetchWord = some s.wordAtPc) ∨ (0xFFE < s.pc.toNat ∧ s.fetchWord = none) := by
  have bytes : Config.insnBytes.toNat = 2 := rfl
  rw [State.fetchWord, bytes]
  rcases s.memRead_cases s.pc.toNat 2 with ⟨h, e⟩ | ⟨-, h, e⟩
  · exact .inl ⟨by omega, by rw [e]; rfl⟩
  · exact .inr ⟨by omega, by rw [e]⟩

/-- Everything a step from a running state can do. -/
theorem step_cases (running : s.status = .running) :
    (0xFFE < s.pc.toNat ∧ step s = raiseFetchFault s.beginStep) ∨
      (∃ i, s.fetchesInstr i ∧ step s = exec i s.atExecute) ∨
      (∃ r, s.fetches ∧ classify s.wordAtPc = .error r ∧ step s = execReject r s.atExecute) := by
  have fetched : s.beginStep.wordAtPc = s.wordAtPc := rfl
  rw [step, running, ← State.atExecute_eq]
  rcases s.beginStep.fetchWord_cases with ⟨h, e⟩ | ⟨h, e⟩
  · rw [fetched] at e
    cases c : classify s.wordAtPc with
    | ok i => exact .inr (.inl ⟨i, ⟨⟨running, h⟩, c⟩, by simp only [e, c]⟩)
    | error r => exact .inr (.inr ⟨r, ⟨running, h⟩, rfl, by simp only [e, c]⟩)
  · exact .inl ⟨h, by simp only [e]⟩

/-- A step that answers a next state was taken while RUNNING (R150). -/
theorem running_of_step (h : step s = .next t) : s.status = .running := by
  rw [step] at h
  cases hs : s.status <;> simp only [hs] at h <;> first | rfl | cases h

/-- A step fetches at most one instruction. -/
theorem State.fetchesInstr_unique {i j : Instr} (hi : s.fetchesInstr i) (hj : s.fetchesInstr j) : i = j := by
  have := hi.2.symm.trans hj.2
  injection this

/-- A run of one step more, where the first step answers a next state. -/
theorem run_succ {M : Host.Core} {a b : M.State} (k : Nat) (h : M.step a = .next b) : M.run (k + 1) a = M.run k b := by
  rw [Host.Core.run, h]

/-- A run of no steps. -/
theorem run_zero (M : Host.Core) (a : M.State) : M.run 0 a = .next a := rfl

end Sys2Proof.Machine
end

