-- ==== Sys2Proof/Laws/Decode.lean ====
section
/-!
SUPPORT. The decoder in arithmetic (spec/30_encoding.md R102 to R108): fields and concatenations as numbers, and what
each of the three masks of the opcode map tests, so that encoding proofs end in linear arithmetic.
-/

namespace Sys2Proof

/-- A concatenation as a number. -/
theorem append_toNat {n m : Nat} (a : BitVec n) (b : BitVec m) : (a ++ b).toNat = a.toNat * 2 ^ m + b.toNat := by
  rw [BitVec.toNat_append, ← Nat.shiftLeft_add_eq_or_of_lt b.isLt, Nat.shiftLeft_eq]

/-- The fields of a word as numbers (R104). -/
theorem fields_eq (op : Word) (f : Fields) :
    fields op = f ↔
      op.toNat / 4096 = f.family.toNat ∧ op.toNat % 4096 = f.addr.toNat ∧ op.toNat / 256 % 16 = f.x.toNat ∧
        op.toNat / 16 % 16 = f.y.toNat ∧ op.toNat % 16 = f.nib.toNat ∧ op.toNat % 256 = f.imm.toNat := by
  have := op.isLt
  obtain ⟨f, a, x, y, n, k⟩ := f
  simp only [fields, Fields.mk.injEq, ← BitVec.toNat_inj, BitVec.extractLsb'_toNat, Nat.shiftRight_eq_div_pow]
  constructor <;> (rintro ⟨h1, h2, h3, h4, h5, h6⟩; refine ⟨?_, ?_, ?_, ?_, ?_, ?_⟩ <;> omega)

theorem fields_toNat (op : Word) :
    (fields op).family.toNat = op.toNat / 4096 ∧ (fields op).addr.toNat = op.toNat % 4096 ∧
      (fields op).x.toNat = op.toNat / 256 % 16 ∧ (fields op).y.toNat = op.toNat / 16 % 16 ∧
      (fields op).nib.toNat = op.toNat % 16 ∧ (fields op).imm.toNat = op.toNat % 256 := by
  obtain ⟨h1, h2, h3, h4, h5, h6⟩ := (fields_eq op (fields op)).mp rfl
  exact ⟨h1.symm, h2.symm, h3.symm, h4.symm, h5.symm, h6.symm⟩

/-- The two bytes of a word make the word (R101). -/
theorem beWord_hiByte_loByte (op : Word) : beWord (hiByte op) (loByte op) = op := by
  have := op.isLt
  apply BitVec.eq_of_toNat_eq
  rw [beWord, append_toNat]
  simp only [hiByte, loByte, BitVec.extractLsb'_toNat, Nat.shiftRight_eq_div_pow]
  omega

/-- Two words are equal when their four nibbles are. -/
theorem word_eq_iff (a b : Word) :
    a = b ↔ a.extractLsb' 12 4 = b.extractLsb' 12 4 ∧ a.extractLsb' 8 4 = b.extractLsb' 8 4 ∧
      a.extractLsb' 4 4 = b.extractLsb' 4 4 ∧ a.extractLsb' 0 4 = b.extractLsb' 0 4 := by
  have := a.isLt
  have := b.isLt
  simp only [← BitVec.toNat_inj, BitVec.extractLsb'_toNat, Nat.shiftRight_eq_div_pow]
  omega

/-- A row is hit nibble by nibble (R107). -/
theorem OpRow.hits_iff (r : OpRow) (op : Word) :
    r.hits op = true ↔
      op.extractLsb' 12 4 &&& r.mask.extractLsb' 12 4 = r.mtch.extractLsb' 12 4 ∧
        op.extractLsb' 8 4 &&& r.mask.extractLsb' 8 4 = r.mtch.extractLsb' 8 4 ∧
        op.extractLsb' 4 4 &&& r.mask.extractLsb' 4 4 = r.mtch.extractLsb' 4 4 ∧
        op.extractLsb' 0 4 &&& r.mask.extractLsb' 0 4 = r.mtch.extractLsb' 0 4 := by
  rw [OpRow.hits, beq_iff_eq, word_eq_iff]
  simp only [BitVec.extractLsb'_and]

/-- A nibble of a word that a mask keeps, and one it drops. -/
theorem nibble_and_ones (n : Nibble) : n &&& 0xF = n := BitVec.and_allOnes

theorem nibble_and_zero (n : Nibble) : n &&& 0x0 = 0 := BitVec.and_zero

theorem zero_toNat : (0 : Nibble).toNat = 0 := rfl

variable {n : Nat} {op m : Word} {b : Fields → Instr}

/-- The mask 0xF000 tests the family (R108). -/
theorem hits_family (hm : m.toNat % 4096 = 0) :
    (OpRow.mk n 0xF000 m b).hits op = true ↔ op.toNat / 4096 = m.toNat / 4096 := by
  have := op.isLt
  have := m.isLt
  rw [OpRow.hits_iff]
  have m12 : (0xF000 : Word).extractLsb' 12 4 = 0xF := by decide
  have m8 : (0xF000 : Word).extractLsb' 8 4 = 0x0 := by decide
  have m4 : (0xF000 : Word).extractLsb' 4 4 = 0x0 := by decide
  have m0 : (0xF000 : Word).extractLsb' 0 4 = 0x0 := by decide
  simp only [m12, m8, m4, m0, nibble_and_ones, nibble_and_zero, ← BitVec.toNat_inj, BitVec.extractLsb'_toNat,
    Nat.shiftRight_eq_div_pow, zero_toNat]
  omega

/-- The mask 0xF00F tests the family and nib (R108). -/
theorem hits_family_nib (hm : m.toNat / 16 % 256 = 0) :
    (OpRow.mk n 0xF00F m b).hits op = true ↔
      op.toNat / 4096 = m.toNat / 4096 ∧ op.toNat % 16 = m.toNat % 16 := by
  have := op.isLt
  have := m.isLt
  rw [OpRow.hits_iff]
  have m12 : (0xF00F : Word).extractLsb' 12 4 = 0xF := by decide
  have m8 : (0xF00F : Word).extractLsb' 8 4 = 0x0 := by decide
  have m4 : (0xF00F : Word).extractLsb' 4 4 = 0x0 := by decide
  have m0 : (0xF00F : Word).extractLsb' 0 4 = 0xF := by decide
  simp only [m12, m8, m4, m0, nibble_and_ones, nibble_and_zero, ← BitVec.toNat_inj, BitVec.extractLsb'_toNat,
    Nat.shiftRight_eq_div_pow, zero_toNat]
  omega

/-- The mask 0xF0FF tests the family and imm (R108). -/
theorem hits_family_imm (hm : m.toNat / 256 % 16 = 0) :
    (OpRow.mk n 0xF0FF m b).hits op = true ↔
      op.toNat / 4096 = m.toNat / 4096 ∧ op.toNat % 256 = m.toNat % 256 := by
  have := op.isLt
  have := m.isLt
  rw [OpRow.hits_iff]
  have m12 : (0xF0FF : Word).extractLsb' 12 4 = 0xF := by decide
  have m8 : (0xF0FF : Word).extractLsb' 8 4 = 0x0 := by decide
  have m4 : (0xF0FF : Word).extractLsb' 4 4 = 0xF := by decide
  have m0 : (0xF0FF : Word).extractLsb' 0 4 = 0xF := by decide
  simp only [m12, m8, m4, m0, nibble_and_ones, nibble_and_zero, ← BitVec.toNat_inj, BitVec.extractLsb'_toNat,
    Nat.shiftRight_eq_div_pow, zero_toNat]
  omega

end Sys2Proof
end

