-- ==== Sys2Proof/Laws/Exec.lean ====
section
/-!
SUPPORT. Everything each meaning with a check can do, said once: its effect where the check passes, the raised fault
where it fails.  The other meanings are one equation by rfl.
-/

namespace Sys2Proof.Machine

variable (s : State)

/-- In the execute phase PC is pc0 + 2 (R143, R146). -/
theorem State.pc0_atExecute : s.atExecute.pc0 = s.pc := BitVec.add_sub_cancel ..

/-- The record of a range at I that stays inside memory. -/
theorem pastTheEnd_inside {op : Word} {n : Nat} (h : n = 0 ∨ s.indexAddr + n ≤ 4096) : pastTheEnd op s n = none := by
  rw [pastTheEnd, if_neg]
  rw [State.indexAddr] at h
  omega

/-- The record of a range at I that reaches past 0xFFF. -/
theorem pastTheEnd_outside {op : Word} {n : Nat} (hn : 0 < n) (h : 4096 < s.indexAddr + n) :
    pastTheEnd op s n = some (accessFault op s.indexAddr s) := by
  rw [pastTheEnd, if_pos ⟨hn, h⟩, accessFault, State.indexAddr, firstBadAddr_toNat]
  rfl

theorem execRet_cases (u : Nibble) :
    (∃ h : 0 < s.sp.val, exec (.ret u) s =
        .next { s with pc := s.slot ⟨s.sp.val - 1, by omega⟩, sp := ⟨s.sp.val - 1, by omega⟩ }) ∨
      (s.sp.val = 0 ∧ exec (.ret u) s = raiseFault (.stackUnderflow (encode (.ret u)) s.pc0) s) := by
  rcases s.pop_cases with ⟨h, e⟩ | ⟨h, e⟩
  · exact .inl ⟨h, by rw [exec, execRet, e]; rfl⟩
  · exact .inr ⟨h, by rw [exec, execRet, e]⟩

theorem execCall_cases (addr : Addr) :
    (∃ h : s.sp.val < 16, exec (.call addr) s =
        .next { s with
          pc := addrWord addr
          stack := s.stack.set s.sp.val s.pc h
          sp := ⟨s.sp.val + 1, Nat.succ_lt_succ h⟩ }) ∨
      (s.sp.val = 16 ∧ exec (.call addr) s = raiseFault (.stackOverflow (encode (.call addr)) s.pc0) s) := by
  rcases s.push_cases s.pc with ⟨h, e⟩ | ⟨h, e⟩
  · exact .inl ⟨h, by rw [exec, execCall, e]; rfl⟩
  · exact .inr ⟨h, by rw [exec, execCall, e]⟩

theorem execSkp_cases (x : Reg) :
    ((s.getV x).toNat ≤ 0xF ∧ exec (.skp x) s = .next (s.skipIf (s.keyDown (s.getV x).toNat))) ∨
      (0xF < (s.getV x).toNat ∧
        exec (.skp x) s = raiseFault (.invalidKeyIndex (encode (.skp x)) s.pc0 (s.getV x)) s) := by
  by_cases h : (s.getV x).toNat ≤ 0xF
  · exact .inl ⟨h, by simp [exec, execSkp, namesKey_iff, h]⟩
  · exact .inr ⟨by omega, by simp [exec, execSkp, namesKey_iff, h]⟩

theorem execSknp_cases (x : Reg) :
    ((s.getV x).toNat ≤ 0xF ∧ exec (.sknp x) s = .next (s.skipIf (!s.keyDown (s.getV x).toNat))) ∨
      (0xF < (s.getV x).toNat ∧
        exec (.sknp x) s = raiseFault (.invalidKeyIndex (encode (.sknp x)) s.pc0 (s.getV x)) s) := by
  by_cases h : (s.getV x).toNat ≤ 0xF
  · exact .inl ⟨h, by simp [exec, execSknp, namesKey_iff, h]⟩
  · exact .inr ⟨by omega, by simp [exec, execSknp, namesKey_iff, h]⟩

theorem execDrw_cases (x y : Reg) (n : Nibble) :
    ((n.toNat = 0 ∨ s.indexAddr + n.toNat ≤ 4096) ∧ exec (.drw x y n) s =
        .next (((s.setFb (s.drawSprite x y (s.bytesAt s.indexAddr n.toNat)).1).setVF
          (s.drawSprite x y (s.bytesAt s.indexAddr n.toNat)).2).setRedraw true)) ∨
      (0 < n.toNat ∧ 4096 < s.indexAddr + n.toNat ∧
        exec (.drw x y n) s = raiseFault (accessFault (encode (.drw x y n)) s.indexAddr s) s) := by
  rcases s.memRead_cases s.indexAddr n.toNat with ⟨h, e⟩ | ⟨h0, h, e⟩
  · exact .inl ⟨h, by rw [exec, execDrw, e]⟩
  · exact .inr ⟨h0, h, by rw [exec, execDrw, e]⟩

theorem execLdB_cases (x : Reg) :
    (s.indexAddr + 3 ≤ 4096 ∧ exec (.ldB x) s =
        .next (s.setMem (memSetBytes s.font s.mem s.indexAddr (bcdDigits (s.getV x))))) ∨
      (4096 < s.indexAddr + 3 ∧ exec (.ldB x) s = raiseFault (accessFault (encode (.ldB x)) s.indexAddr s) s) := by
  have len : (bcdDigits (s.getV x)).length = 3 := rfl
  rcases s.memWrite_cases s.indexAddr (bcdDigits (s.getV x)) with ⟨h, e⟩ | ⟨-, h, e⟩ <;> rw [len] at h
  · exact .inl ⟨by omega, by rw [exec, execLdB, e]⟩
  · exact .inr ⟨h, by rw [exec, execLdB, e]⟩

theorem execStore_cases (x : Reg) :
    (s.indexAddr + blockCount x ≤ 4096 ∧ exec (.store x) s =
        .next ((s.setMem (memSetBytes s.font s.mem s.indexAddr (s.getVs (blockCount x)))).setI
          (s.indexAfterBlock x))) ∨
      (4096 < s.indexAddr + blockCount x ∧
        exec (.store x) s = raiseFault (accessFault (encode (.store x)) s.indexAddr s) s) := by
  have pos : 0 < blockCount x := Nat.succ_pos _
  rcases s.memWrite_cases s.indexAddr (s.getVs (blockCount x)) with ⟨h, e⟩ | ⟨-, h, e⟩ <;>
    rw [State.getVs_length] at h
  · exact .inl ⟨by omega, by rw [exec, execStore, e]⟩
  · exact .inr ⟨h, by rw [exec, execStore, e]⟩

theorem execLoad_cases (x : Reg) :
    (s.indexAddr + blockCount x ≤ 4096 ∧ exec (.load x) s =
        .next ((s.setVs 0 (s.bytesAt s.indexAddr (blockCount x))).setI (s.indexAfterBlock x))) ∨
      (4096 < s.indexAddr + blockCount x ∧
        exec (.load x) s = raiseFault (accessFault (encode (.load x)) s.indexAddr s) s) := by
  have pos : 0 < blockCount x := Nat.succ_pos _
  rcases s.memRead_cases s.indexAddr (blockCount x) with ⟨h, e⟩ | ⟨-, h, e⟩
  · exact .inl ⟨by omega, by rw [exec, execLoad, e]⟩
  · exact .inr ⟨h, by rw [exec, execLoad, e]⟩

end Sys2Proof.Machine
end

