-- ==== Sys2Proof/Laws/PerInstr.lean ====
section
/-!
SUPPORT. The family EncodeRow: the word of every instruction hits the row of the opcode map the instruction belongs
to (spec/30_encoding.md R108), one lemma per constructor.
-/

namespace Sys2Proof.Laws.EncodeRow

/-- The row of R108 with the instruction's number exists, carries that number, and is hit by the instruction's word. -/
def Statement (i : Instr) : Prop :=
  ∃ r, opcodeMap[i.row - 1]? = some r ∧ r.order = i.row ∧ r.hits (encode i) = true

theorem cls (u : Nibble) : Statement (.cls u) := by
  have := u.isLt
  refine ⟨_, rfl, rfl, (hits_family_imm (by decide)).mpr ?_⟩
  simp only [encode, append_toNat, BitVec.ofNat_eq_ofNat, BitVec.toNat_ofNat]
  omega

theorem ret (u : Nibble) : Statement (.ret u) := by
  have := u.isLt
  refine ⟨_, rfl, rfl, (hits_family_imm (by decide)).mpr ?_⟩
  simp only [encode, append_toNat, BitVec.ofNat_eq_ofNat, BitVec.toNat_ofNat]
  omega

theorem sys (addr : Addr) : Statement (.sys addr) := by
  have := addr.isLt
  refine ⟨_, rfl, rfl, (hits_family (by decide)).mpr ?_⟩
  simp only [encode, append_toNat, BitVec.ofNat_eq_ofNat, BitVec.toNat_ofNat]
  omega

theorem jp (addr : Addr) : Statement (.jp addr) := by
  have := addr.isLt
  refine ⟨_, rfl, rfl, (hits_family (by decide)).mpr ?_⟩
  simp only [encode, append_toNat, BitVec.ofNat_eq_ofNat, BitVec.toNat_ofNat]
  omega

theorem call (addr : Addr) : Statement (.call addr) := by
  have := addr.isLt
  refine ⟨_, rfl, rfl, (hits_family (by decide)).mpr ?_⟩
  simp only [encode, append_toNat, BitVec.ofNat_eq_ofNat, BitVec.toNat_ofNat]
  omega

theorem seImm (x : Reg) (imm : Byte) : Statement (.seImm x imm) := by
  have := x.isLt
  have := imm.isLt
  refine ⟨_, rfl, rfl, (hits_family (by decide)).mpr ?_⟩
  simp only [encode, append_toNat, BitVec.ofNat_eq_ofNat, BitVec.toNat_ofNat]
  omega

theorem sneImm (x : Reg) (imm : Byte) : Statement (.sneImm x imm) := by
  have := x.isLt
  have := imm.isLt
  refine ⟨_, rfl, rfl, (hits_family (by decide)).mpr ?_⟩
  simp only [encode, append_toNat, BitVec.ofNat_eq_ofNat, BitVec.toNat_ofNat]
  omega

theorem seReg (x : Reg) (y : Reg) : Statement (.seReg x y) := by
  have := x.isLt
  have := y.isLt
  refine ⟨_, rfl, rfl, (hits_family_nib (by decide)).mpr ?_⟩
  simp only [encode, append_toNat, BitVec.ofNat_eq_ofNat, BitVec.toNat_ofNat]
  omega

theorem ldImm (x : Reg) (imm : Byte) : Statement (.ldImm x imm) := by
  have := x.isLt
  have := imm.isLt
  refine ⟨_, rfl, rfl, (hits_family (by decide)).mpr ?_⟩
  simp only [encode, append_toNat, BitVec.ofNat_eq_ofNat, BitVec.toNat_ofNat]
  omega

theorem addImm (x : Reg) (imm : Byte) : Statement (.addImm x imm) := by
  have := x.isLt
  have := imm.isLt
  refine ⟨_, rfl, rfl, (hits_family (by decide)).mpr ?_⟩
  simp only [encode, append_toNat, BitVec.ofNat_eq_ofNat, BitVec.toNat_ofNat]
  omega

theorem ldReg (x : Reg) (y : Reg) : Statement (.ldReg x y) := by
  have := x.isLt
  have := y.isLt
  refine ⟨_, rfl, rfl, (hits_family_nib (by decide)).mpr ?_⟩
  simp only [encode, append_toNat, BitVec.ofNat_eq_ofNat, BitVec.toNat_ofNat]
  omega

theorem orReg (x : Reg) (y : Reg) : Statement (.orReg x y) := by
  have := x.isLt
  have := y.isLt
  refine ⟨_, rfl, rfl, (hits_family_nib (by decide)).mpr ?_⟩
  simp only [encode, append_toNat, BitVec.ofNat_eq_ofNat, BitVec.toNat_ofNat]
  omega

theorem andReg (x : Reg) (y : Reg) : Statement (.andReg x y) := by
  have := x.isLt
  have := y.isLt
  refine ⟨_, rfl, rfl, (hits_family_nib (by decide)).mpr ?_⟩
  simp only [encode, append_toNat, BitVec.ofNat_eq_ofNat, BitVec.toNat_ofNat]
  omega

theorem xorReg (x : Reg) (y : Reg) : Statement (.xorReg x y) := by
  have := x.isLt
  have := y.isLt
  refine ⟨_, rfl, rfl, (hits_family_nib (by decide)).mpr ?_⟩
  simp only [encode, append_toNat, BitVec.ofNat_eq_ofNat, BitVec.toNat_ofNat]
  omega

theorem addReg (x : Reg) (y : Reg) : Statement (.addReg x y) := by
  have := x.isLt
  have := y.isLt
  refine ⟨_, rfl, rfl, (hits_family_nib (by decide)).mpr ?_⟩
  simp only [encode, append_toNat, BitVec.ofNat_eq_ofNat, BitVec.toNat_ofNat]
  omega

theorem subReg (x : Reg) (y : Reg) : Statement (.subReg x y) := by
  have := x.isLt
  have := y.isLt
  refine ⟨_, rfl, rfl, (hits_family_nib (by decide)).mpr ?_⟩
  simp only [encode, append_toNat, BitVec.ofNat_eq_ofNat, BitVec.toNat_ofNat]
  omega

theorem shr (x : Reg) (y : Reg) : Statement (.shr x y) := by
  have := x.isLt
  have := y.isLt
  refine ⟨_, rfl, rfl, (hits_family_nib (by decide)).mpr ?_⟩
  simp only [encode, append_toNat, BitVec.ofNat_eq_ofNat, BitVec.toNat_ofNat]
  omega

theorem subnReg (x : Reg) (y : Reg) : Statement (.subnReg x y) := by
  have := x.isLt
  have := y.isLt
  refine ⟨_, rfl, rfl, (hits_family_nib (by decide)).mpr ?_⟩
  simp only [encode, append_toNat, BitVec.ofNat_eq_ofNat, BitVec.toNat_ofNat]
  omega

theorem shl (x : Reg) (y : Reg) : Statement (.shl x y) := by
  have := x.isLt
  have := y.isLt
  refine ⟨_, rfl, rfl, (hits_family_nib (by decide)).mpr ?_⟩
  simp only [encode, append_toNat, BitVec.ofNat_eq_ofNat, BitVec.toNat_ofNat]
  omega

theorem sneReg (x : Reg) (y : Reg) : Statement (.sneReg x y) := by
  have := x.isLt
  have := y.isLt
  refine ⟨_, rfl, rfl, (hits_family_nib (by decide)).mpr ?_⟩
  simp only [encode, append_toNat, BitVec.ofNat_eq_ofNat, BitVec.toNat_ofNat]
  omega

theorem ldI (addr : Addr) : Statement (.ldI addr) := by
  have := addr.isLt
  refine ⟨_, rfl, rfl, (hits_family (by decide)).mpr ?_⟩
  simp only [encode, append_toNat, BitVec.ofNat_eq_ofNat, BitVec.toNat_ofNat]
  omega

theorem jpV0 (addr : Addr) : Statement (.jpV0 addr) := by
  have := addr.isLt
  refine ⟨_, rfl, rfl, (hits_family (by decide)).mpr ?_⟩
  simp only [encode, append_toNat, BitVec.ofNat_eq_ofNat, BitVec.toNat_ofNat]
  omega

theorem rnd (x : Reg) (imm : Byte) : Statement (.rnd x imm) := by
  have := x.isLt
  have := imm.isLt
  refine ⟨_, rfl, rfl, (hits_family (by decide)).mpr ?_⟩
  simp only [encode, append_toNat, BitVec.ofNat_eq_ofNat, BitVec.toNat_ofNat]
  omega

theorem drw (x : Reg) (y : Reg) (n : Nibble) : Statement (.drw x y n) := by
  have := x.isLt
  have := y.isLt
  have := n.isLt
  refine ⟨_, rfl, rfl, (hits_family (by decide)).mpr ?_⟩
  simp only [encode, append_toNat, BitVec.ofNat_eq_ofNat, BitVec.toNat_ofNat]
  omega

theorem skp (x : Reg) : Statement (.skp x) := by
  have := x.isLt
  refine ⟨_, rfl, rfl, (hits_family_imm (by decide)).mpr ?_⟩
  simp only [encode, append_toNat, BitVec.ofNat_eq_ofNat, BitVec.toNat_ofNat]
  omega

theorem sknp (x : Reg) : Statement (.sknp x) := by
  have := x.isLt
  refine ⟨_, rfl, rfl, (hits_family_imm (by decide)).mpr ?_⟩
  simp only [encode, append_toNat, BitVec.ofNat_eq_ofNat, BitVec.toNat_ofNat]
  omega

theorem ldVxDt (x : Reg) : Statement (.ldVxDt x) := by
  have := x.isLt
  refine ⟨_, rfl, rfl, (hits_family_imm (by decide)).mpr ?_⟩
  simp only [encode, append_toNat, BitVec.ofNat_eq_ofNat, BitVec.toNat_ofNat]
  omega

theorem ldVxK (x : Reg) : Statement (.ldVxK x) := by
  have := x.isLt
  refine ⟨_, rfl, rfl, (hits_family_imm (by decide)).mpr ?_⟩
  simp only [encode, append_toNat, BitVec.ofNat_eq_ofNat, BitVec.toNat_ofNat]
  omega

theorem ldDtVx (x : Reg) : Statement (.ldDtVx x) := by
  have := x.isLt
  refine ⟨_, rfl, rfl, (hits_family_imm (by decide)).mpr ?_⟩
  simp only [encode, append_toNat, BitVec.ofNat_eq_ofNat, BitVec.toNat_ofNat]
  omega

theorem ldStVx (x : Reg) : Statement (.ldStVx x) := by
  have := x.isLt
  refine ⟨_, rfl, rfl, (hits_family_imm (by decide)).mpr ?_⟩
  simp only [encode, append_toNat, BitVec.ofNat_eq_ofNat, BitVec.toNat_ofNat]
  omega

theorem addI (x : Reg) : Statement (.addI x) := by
  have := x.isLt
  refine ⟨_, rfl, rfl, (hits_family_imm (by decide)).mpr ?_⟩
  simp only [encode, append_toNat, BitVec.ofNat_eq_ofNat, BitVec.toNat_ofNat]
  omega

theorem ldF (x : Reg) : Statement (.ldF x) := by
  have := x.isLt
  refine ⟨_, rfl, rfl, (hits_family_imm (by decide)).mpr ?_⟩
  simp only [encode, append_toNat, BitVec.ofNat_eq_ofNat, BitVec.toNat_ofNat]
  omega

theorem ldB (x : Reg) : Statement (.ldB x) := by
  have := x.isLt
  refine ⟨_, rfl, rfl, (hits_family_imm (by decide)).mpr ?_⟩
  simp only [encode, append_toNat, BitVec.ofNat_eq_ofNat, BitVec.toNat_ofNat]
  omega

theorem store (x : Reg) : Statement (.store x) := by
  have := x.isLt
  refine ⟨_, rfl, rfl, (hits_family_imm (by decide)).mpr ?_⟩
  simp only [encode, append_toNat, BitVec.ofNat_eq_ofNat, BitVec.toNat_ofNat]
  omega

theorem load (x : Reg) : Statement (.load x) := by
  have := x.isLt
  refine ⟨_, rfl, rfl, (hits_family_imm (by decide)).mpr ?_⟩
  simp only [encode, append_toNat, BitVec.ofNat_eq_ofNat, BitVec.toNat_ofNat]
  omega

end Sys2Proof.Laws.EncodeRow
end

