-- ==== Sys2Proof/Tests/Slice0.lean ====
section
/-!
SUPPORT. The model's own tests.  Expected values come from the vectors of spec/95_test_vectors.md (their ids are in the
docstrings) and from words written out by hand from the patterns of spec/30_encoding.md R108; then, for each statement
of Certificates/Slice0/Obligations.lean that has hypotheses, a theorem that shows them met together.
-/

namespace Sys2Proof.Tests

open Sys2Proof.Machine

/-! ### Helpers -/

/-- Every quirk false. -/
def q0 : Quirks := ⟨false, false, false, false, false, false⟩

/-- The start state of the vectors: construction with every quirk false. -/
def s0 : State := State.construct q0 Config.customaryFont

/-- Registers by number. -/
def setRegs (s : State) : List (Reg × Byte) → State
  | [] => s
  | (r, b) :: rest => setRegs (s.setV r b) rest

/-- Bytes placed in memory. -/
def poke (s : State) (addr : Nat) (bytes : List Byte) : State := s.setMem (memSetBytes s.font s.mem addr bytes)

/-- One step on a word placed at PC, with these step inputs. -/
def stepOn (op : Nat) (s : State) (keys : BitVec 16) (rnd : Byte) : Result := stepWith ⟨keys, rnd⟩ (s.withFetchWord 16 op)

/-- One step with no key held and the random byte 0. -/
def stepIdle (op : Nat) (s : State) : Result := stepOn op s 0 0

/-- A property of the next state, where there is one. -/
def next (r : Result) (p : State → Bool) : Bool :=
  match r with
  | .next t => p t
  | .fault _ => false
  | .refused _ => false

/-- A step that faults with this record, PC at `pc`. -/
def faultsAt (r : Result) (pc : Word) (record : FaultRecord) : Bool :=
  next r fun t => t.status == .faulted && t.fault == some record && t.pc == pc

/-! ### WellFormed: the smoke test, an ill-formed term for each check -/

theorem test_wf_refuses_sys_that_reads_as_cls : (Instr.sys 0x0E0).wf = false := by decide
theorem test_wf_refuses_sys_that_reads_as_ret : (Instr.sys 0xFEE).wf = false := by decide
theorem test_wf_accepts_sys : (Instr.sys 0x0EF).wf = true := by decide

/-! ### Decoding: a word written out from R108 for every constructor -/

theorem test_decode_cls : decode [0x0A, 0xE0] = .ok (.cls 0xA, []) := by decide
theorem test_decode_ret : decode [0x0B, 0xEE] = .ok (.ret 0xB, []) := by decide
theorem test_decode_sys : decode [0x01, 0x23] = .ok (.sys 0x123, []) := by decide
theorem test_decode_jp : decode [0x1A, 0xBC] = .ok (.jp 0xABC, []) := by decide
theorem test_decode_call : decode [0x2D, 0xEF] = .ok (.call 0xDEF, []) := by decide
theorem test_decode_seImm : decode [0x3A, 0x5C] = .ok (.seImm 0xA 0x5C, []) := by decide
theorem test_decode_sneImm : decode [0x4B, 0x6D] = .ok (.sneImm 0xB 0x6D, []) := by decide
theorem test_decode_seReg : decode [0x5C, 0xD0] = .ok (.seReg 0xC 0xD, []) := by decide
theorem test_decode_ldImm : decode [0x6E, 0x42] = .ok (.ldImm 0xE 0x42, []) := by decide
theorem test_decode_addImm : decode [0x7F, 0x01] = .ok (.addImm 0xF 0x01, []) := by decide
theorem test_decode_ldReg : decode [0x81, 0xA0] = .ok (.ldReg 0x1 0xA, []) := by decide
theorem test_decode_orReg : decode [0x82, 0xB1] = .ok (.orReg 0x2 0xB, []) := by decide
theorem test_decode_andReg : decode [0x83, 0xC2] = .ok (.andReg 0x3 0xC, []) := by decide
theorem test_decode_xorReg : decode [0x84, 0xD3] = .ok (.xorReg 0x4 0xD, []) := by decide
theorem test_decode_addReg : decode [0x85, 0xE4] = .ok (.addReg 0x5 0xE, []) := by decide
theorem test_decode_subReg : decode [0x86, 0xF5] = .ok (.subReg 0x6 0xF, []) := by decide
theorem test_decode_shr : decode [0x87, 0x06] = .ok (.shr 0x7 0x0, []) := by decide
theorem test_decode_subnReg : decode [0x88, 0x17] = .ok (.subnReg 0x8 0x1, []) := by decide
theorem test_decode_shl : decode [0x89, 0x2E] = .ok (.shl 0x9 0x2, []) := by decide
theorem test_decode_sneReg : decode [0x93, 0xA0] = .ok (.sneReg 0x3 0xA, []) := by decide
theorem test_decode_ldI : decode [0xA7, 0xF3] = .ok (.ldI 0x7F3, []) := by decide
theorem test_decode_jpV0 : decode [0xB8, 0xE4] = .ok (.jpV0 0x8E4, []) := by decide
theorem test_decode_rnd : decode [0xC9, 0xD5] = .ok (.rnd 0x9 0xD5, []) := by decide
theorem test_decode_drw : decode [0xDA, 0xB6] = .ok (.drw 0xA 0xB 0x6, []) := by decide
theorem test_decode_skp : decode [0xEC, 0x9E] = .ok (.skp 0xC, []) := by decide
theorem test_decode_sknp : decode [0xED, 0xA1] = .ok (.sknp 0xD, []) := by decide
theorem test_decode_ldVxDt : decode [0xF1, 0x07] = .ok (.ldVxDt 0x1, []) := by decide
theorem test_decode_ldVxK : decode [0xF2, 0x0A] = .ok (.ldVxK 0x2, []) := by decide
theorem test_decode_ldDtVx : decode [0xF3, 0x15] = .ok (.ldDtVx 0x3, []) := by decide
theorem test_decode_ldStVx : decode [0xF4, 0x18] = .ok (.ldStVx 0x4, []) := by decide
theorem test_decode_addI : decode [0xF5, 0x1E] = .ok (.addI 0x5, []) := by decide
theorem test_decode_ldF : decode [0xF6, 0x29] = .ok (.ldF 0x6, []) := by decide
theorem test_decode_ldB : decode [0xF7, 0x33] = .ok (.ldB 0x7, []) := by decide
theorem test_decode_store : decode [0xF8, 0x55] = .ok (.store 0x8, []) := by decide
theorem test_decode_load : decode [0xF9, 0x65] = .ok (.load 0x9, []) := by decide

/-- The rest of the bytes is given back, and a lone byte is refused by name. -/
theorem test_decode_rest : decode [0x1F, 0xFF, 0x12] = .ok (.jp 0xFFF, [0x12]) ∧ decode [0x1F] = .error .truncated := by
  decide

/-- K6, K8, K12, K13, A33, B25, E14: invalid words, one of each row of R109 that has some. -/
theorem test_decode_invalid :
    decode [0x80, 0x08] = .error (.invalid 0x8008) ∧ decode [0x5A, 0xB1] = .error (.invalid 0x5AB1) ∧
      decode [0xF1, 0x66] = .error (.invalid 0xF166) ∧ decode [0xFF, 0xFF] = .error (.invalid 0xFFFF) ∧
      decode [0x81, 0x2F] = .error (.invalid 0x812F) ∧ decode [0x91, 0x2F] = .error (.invalid 0x912F) ∧
      decode [0xE1, 0x9F] = .error (.invalid 0xE19F) := by decide

/-- K1: the fields of D125. -/
theorem test_fields : fields 0xD125 = ⟨0xD, 0x125, 0x1, 0x2, 0x5, 0x25⟩ := by decide

/-- The opcode table's numbering: a 16-bit row is the instruction word itself. -/
theorem test_table_word : decodeTableWord 16 0xD125 = some (.drw 1 2 5) := by decide

/-! ### One step on each instruction -/

/-- D1, B9: CLS with an ignored nibble clears the screen and leaves REDRAW. -/
theorem test_cls :
    next (stepIdle 0x05E0 (s0.setFb (togglePixel s0.fb 63 31)))
      (fun t => t.fb == clearedFb && !t.redraw && t.pc == 0x202) = true := by decide

/-- B4: RET pops and keeps the slot. -/
theorem test_ret :
    next (stepIdle 0x00EE { s0 with sp := 1, stack := s0.stack.set 0 0x204 })
      (fun t => t.sp == 0 && t.pc == 0x204 && t.slot 0 == 0x204) = true := by decide

/-- B5: RET on an empty stack. -/
theorem test_ret_underflow : faultsAt (stepIdle 0x00EE s0) 0x202 (.stackUnderflow 0x00EE 0x200) = true := by decide

/-- B7: a SYS word faults with the raw word. -/
theorem test_sys : faultsAt (stepIdle 0x0123 s0) 0x202 (.invalidInstruction 0x0123 0x200) = true := by decide

/-- B1. -/
theorem test_jp : next (stepIdle 0x1300 s0) (fun t => t.pc == 0x300) = true := by decide

/-- B3. -/
theorem test_call :
    next (stepIdle 0x220A { s0 with pc := 0x202 }) (fun t => t.slot 0 == 0x204 && t.sp == 1 && t.pc == 0x20A) = true := by
  decide

/-- B6: CALL on a full stack. -/
theorem test_call_overflow :
    faultsAt (stepIdle 0x2400 { s0 with pc := 0x202, sp := 16 }) 0x204 (.stackOverflow 0x2400 0x202) = true := by decide

/-- B16. -/
theorem test_seImm : next (stepIdle 0x3007 (s0.setV 0 0x07)) (fun t => t.pc == 0x204) = true := by decide

/-- B18. -/
theorem test_sneImm : next (stepIdle 0x4007 (s0.setV 0 0x08)) (fun t => t.pc == 0x204) = true := by decide

/-- B21. -/
theorem test_seReg : next (stepIdle 0x5120 (setRegs s0 [(1, 0x33), (2, 0x34)])) (fun t => t.pc == 0x202) = true := by
  decide

/-- B23. -/
theorem test_sneReg : next (stepIdle 0x9120 (setRegs s0 [(1, 0x01), (2, 0x02)])) (fun t => t.pc == 0x204) = true := by
  decide

/-- A1. -/
theorem test_ldImm : next (stepIdle 0x6A42 s0) (fun t => t.getV 0xA == 0x42 && t.pc == 0x202) = true := by decide

/-- A2: wraps and records no carry. -/
theorem test_addImm :
    next (stepIdle 0x7510 (setRegs s0 [(5, 0xF8), (0xF, 0x33)])) (fun t => t.getV 5 == 0x08 && t.getV 0xF == 0x33) =
      true := by decide

/-- A5. -/
theorem test_ldReg : next (stepIdle 0x81F0 (s0.setV 0xF 0x05)) (fun t => t.getV 1 == 0x05) = true := by decide

/-- A7: OR with Q_VF_RESET. -/
theorem test_orReg_reset :
    next (stepIdle 0x8121 { setRegs s0 [(1, 0x0F), (2, 0xF0), (0xF, 0x01)] with quirks := { q0 with vfReset := true } })
      (fun t => t.getV 1 == 0xFF && t.getV 0xF == 0x00) = true := by decide

/-- A8: OR into VF without the quirk. -/
theorem test_orReg_into_vf :
    next (stepIdle 0x8F11 (setRegs s0 [(1, 0xF0), (0xF, 0x0F)])) (fun t => t.getV 0xF == 0xFF) = true := by decide

/-- A10: AND without the quirk leaves VF. -/
theorem test_andReg :
    next (stepIdle 0x8122 (setRegs s0 [(1, 0x3C), (2, 0x0F), (0xF, 0x01)]))
      (fun t => t.getV 1 == 0x0C && t.getV 0xF == 0x01) = true := by decide

/-- A13: XOR with Q_VF_RESET. -/
theorem test_xorReg :
    next (stepIdle 0x8123 { setRegs s0 [(1, 0xFF), (2, 0x0F), (0xF, 0x01)] with quirks := { q0 with vfReset := true } })
      (fun t => t.getV 1 == 0xF0 && t.getV 0xF == 0x00) = true := by decide

/-- A14, S1. -/
theorem test_addReg :
    next (stepIdle 0x8014 (setRegs s0 [(0, 0xFF), (1, 0x02)])) (fun t => t.getV 0 == 0x01 && t.getV 0xF == 0x01) =
      true := by decide

/-- A17: the carry replaces the sum in VF. -/
theorem test_addReg_into_vf :
    next (stepIdle 0x8F14 (setRegs s0 [(1, 0x02), (0xF, 0xFF)])) (fun t => t.getV 0xF == 0x01) = true := by decide

/-- A19, S2. -/
theorem test_subReg :
    next (stepIdle 0x8015 (setRegs s0 [(0, 0x05), (1, 0x0A)])) (fun t => t.getV 0 == 0xFB && t.getV 0xF == 0x00) =
      true := by decide

/-- A21: equal operands give VF = 0. -/
theorem test_subReg_equal :
    next (stepIdle 0x8015 (setRegs s0 [(0, 0x07), (1, 0x07), (0xF, 0x01)]))
      (fun t => t.getV 0 == 0x00 && t.getV 0xF == 0x00) = true := by decide

/-- A24. -/
theorem test_subnReg :
    next (stepIdle 0x8017 (setRegs s0 [(0, 0x0A), (1, 0x05)])) (fun t => t.getV 0 == 0xFB && t.getV 0xF == 0x00) =
      true := by decide

/-- A26: SHR shifts V[y] into V[x]. -/
theorem test_shr :
    next (stepIdle 0x8126 (s0.setV 2 0x05)) (fun t => t.getV 1 == 0x02 && t.getV 2 == 0x05 && t.getV 0xF == 0x01) =
      true := by decide

/-- A31: the bit shifted out replaces the result in VF. -/
theorem test_shr_into_vf : next (stepIdle 0x8F06 (s0.setV 0 0x03)) (fun t => t.getV 0xF == 0x01) = true := by decide

/-- A29: SHL shifts V[x] under Q_SHIFT_USES_VX. -/
theorem test_shl_quirk :
    next (stepIdle 0x812E { s0.setV 1 0x81 with quirks := { q0 with shiftUsesVx := true } })
      (fun t => t.getV 1 == 0x02 && t.getV 0xF == 0x01) = true := by decide

/-- A30. -/
theorem test_shl :
    next (stepIdle 0x812E (s0.setV 2 0x7F)) (fun t => t.getV 1 == 0xFE && t.getV 0xF == 0x00) = true := by decide

/-- C1. -/
theorem test_ldI : next (stepIdle 0xA300 s0) (fun t => t.i == 0x300 && t.pc == 0x202) = true := by decide

/-- B13: JP V0,nnn with the register the address names. -/
theorem test_jpV0_quirk :
    next (stepIdle 0xB210 { s0.setV 2 0x05 with quirks := { q0 with jumpUsesVx := true } }) (fun t => t.pc == 0x215) =
      true := by decide

/-- B14: no reduction to 12 bits. -/
theorem test_jpV0_past_the_end : next (stepIdle 0xBFFF (s0.setV 0 0xFF)) (fun t => t.pc == 0x10FE) = true := by decide

/-- E15. -/
theorem test_rnd : next (stepOn 0xC00F s0 0 0xA7) (fun t => t.getV 0 == 0x07) = true := by decide

/-- D4, S5: a sprite row wraps from column 63 to 0. -/
theorem test_drw_wraps :
    next (stepIdle 0xD011 { poke (setRegs s0 [(0, 0x3C), (1, 0x05)]) 0x300 [0xFF] with i := 0x300 })
      (fun t => pixel t.fb 60 5 && pixel t.fb 63 5 && pixel t.fb 0 5 && pixel t.fb 3 5 && !pixel t.fb 4 5 &&
        !pixel t.fb 59 5 && t.getV 0xF == 0 && t.redraw) = true := by decide

/-- D9: a row wraps from 31 to 0 and a collision is recorded. -/
theorem test_drw_collides :
    next (stepIdle 0xD012
        { poke (s0.setV 1 0x1F) 0x300 [0xC0, 0x40] with i := 0x300, fb := togglePixel s0.fb 1 0 })
      (fun t => pixel t.fb 0 31 && pixel t.fb 1 31 && !pixel t.fb 1 0 && t.getV 0xF == 1 && t.redraw) = true := by decide

/-- E8. -/
theorem test_skp : next (stepOn 0xE19E (s0.setV 1 0x07) 0x0080 0) (fun t => t.pc == 0x204) = true := by decide

/-- E12. -/
theorem test_skp_no_key :
    faultsAt (stepIdle 0xE19E (s0.setV 1 0x10)) 0x202 (.invalidKeyIndex 0xE19E 0x200 0x10) = true := by decide

/-- E11. -/
theorem test_sknp : next (stepOn 0xE1A1 (s0.setV 1 0x07) 0x0080 0) (fun t => t.pc == 0x202) = true := by decide

/-- E13. -/
theorem test_sknp_no_key :
    faultsAt (stepIdle 0xE1A1 (s0.setV 1 0xFF)) 0x202 (.invalidKeyIndex 0xE1A1 0x200 0xFF) = true := by decide

/-- E1: DT is read after the countdown. -/
theorem test_ldVxDt : next (stepIdle 0xF507 { s0 with dt := 3 }) (fun t => t.dt == 2 && t.getV 5 == 2) = true := by decide

/-- E6: the lowest of keys 5 and 9. -/
theorem test_ldVxK :
    next (stepOn 0xF40A { s0 with pc := 0x204 } 0x0220 0) (fun t => t.getV 4 == 5 && t.pc == 0x206) = true := by decide

/-- E7: the timers count while the key-wait rewinds PC. -/
theorem test_ldVxK_waits :
    next (stepIdle 0xF40A { s0 with pc := 0x204, dt := 2, st := 1 }) (fun t => t.pc == 0x204 && t.dt == 1 && t.st == 0) =
      true := by decide

/-- E3: the written value is not counted down in the same step. -/
theorem test_ldDtVx : next (stepIdle 0xF315 (s0.setV 3 0x03)) (fun t => t.dt == 3) = true := by decide

/-- E4. -/
theorem test_ldStVx : next (stepIdle 0xF318 (s0.setV 3 0x0A)) (fun t => t.st == 0x0A) = true := by decide

/-- C2 and C3: the threshold of ADD I,Vx, on both sides. -/
theorem test_addI :
    next (stepIdle 0xF01E { s0.setV 0 0x02 with i := 0xEFF }) (fun t => t.i == 0xF01 && t.getV 0xF == 1) = true ∧
      next (stepIdle 0xF01E { setRegs s0 [(0, 0x02), (0xF, 0x01)] with i := 0xEFE })
        (fun t => t.i == 0xF00 && t.getV 0xF == 0) = true := by decide

/-- C5: I wraps at 16 bits. -/
theorem test_addI_wraps :
    next (stepIdle 0xF01E { s0.setV 0 0x01 with i := 0xFFFF }) (fun t => t.i == 0 && t.getV 0xF == 0) = true := by decide

/-- C9: no mask. -/
theorem test_ldF : next (stepIdle 0xF029 (s0.setV 0 0xFF)) (fun t => t.i == 0x4FB) = true := by decide

/-- C13: the highest I that succeeds. -/
theorem test_ldB :
    next (stepIdle 0xF033 { s0.setV 0 0x7B with i := 0xFFD }) (fun t => t.bytesAt 0xFFD 3 == [1, 2, 3]) = true := by decide

/-- C14: one more faults, and no byte is written. -/
theorem test_ldB_past_the_end :
    faultsAt (stepIdle 0xF033 { s0.setV 0 0x7B with i := 0xFFE }) 0x202
        (.addressOutOfBounds (some 0xF033) 0x200 0x1000) = true ∧
      next (stepIdle 0xF033 { s0.setV 0 0x7B with i := 0xFFE }) (fun t => t.bytesAt 0xFFE 2 == [0, 0]) = true := by decide

/-- C16: the block store with Q_INDEX_INCREMENT. -/
theorem test_store :
    next (stepIdle 0xF255
        { setRegs s0 [(0, 1), (1, 2), (2, 3)] with i := 0x300, quirks := { q0 with indexIncrement := true } })
      (fun t => t.bytesAt 0x300 4 == [1, 2, 3, 0] && t.i == 0x303) = true := by decide

/-- C23: a font byte can be overwritten. -/
theorem test_store_into_font :
    next (stepIdle 0xF055 { s0.setV 0 0xAA with i := 0x010 }) (fun t => t.byteAt 0x010 == 0xAA) = true := by decide

/-- C19. -/
theorem test_load :
    next (stepIdle 0xF265 { poke s0 0x300 [1, 5, 6] with i := 0x300 })
      (fun t => t.getV 0 == 1 && t.getV 1 == 5 && t.getV 2 == 6 && t.i == 0x300) = true := by decide

/-- C22. -/
theorem test_load_past_the_end :
    faultsAt (stepIdle 0xF065 { s0 with i := 0x1000 }) 0x202 (.addressOutOfBounds (some 0xF065) 0x200 0x1000) = true := by
  decide

/-! ### Steps and host transactions -/

/-- T1: a faulting step has counted the timers and advanced PC. -/
theorem test_faulting_step :
    next (stepIdle 0x0000 { s0 with dt := 5, st := 5 })
      (fun t => t.dt == 4 && t.st == 4 && t.pc == 0x202 && t.fault == some (.invalidInstruction 0x0000 0x200)) = true := by
  decide

/-- B22: an invalid word. -/
theorem test_invalid_word : faultsAt (stepIdle 0x5121 s0) 0x202 (.invalidInstruction 0x5121 0x200) = true := by decide

/-- B15 and B27: a fetch past the end leaves PC. -/
theorem test_fetch_fault :
    faultsAt (step { s0 with pc := 0x10FE }) 0x10FE (.addressOutOfBounds none 0x10FE 0x10FE) = true ∧
      faultsAt (step { s0 with pc := 0xFFF }) 0xFFF (.addressOutOfBounds none 0xFFF 0x1000) = true := by decide

/-- T6: the key latch and STARTED. -/
theorem test_latch : next (stepOn 0x6000 s0 0x0001 0) (fun t => t.keys == 0x0001 && t.started) = true := by decide

/-- E18 and E19: the timers count in every step, floor 0. -/
theorem test_timers :
    next (stepIdle 0x6000 { s0 with dt := 1, st := 0xFF }) (fun t => t.dt == 0 && t.st == 0xFE) = true ∧
      next (stepIdle 0x6000 s0) (fun t => t.dt == 0 && t.st == 0) = true := by decide

/-- T2: after a fault no step is enabled. -/
theorem test_stuck : step { s0 with status := .faulted } = .fault .stuckFaulted := rfl

/-- T4 and T5. -/
theorem test_peek : peek s0 0x1000 = .outOfRange ∧ peek s0 0x000 = .byte 0xF0 ∧ peek s0 0x004 = .byte 0xF0 := by decide

/-- L4, the second load: only its own length is overwritten. -/
theorem test_load_program :
    (match loadProgram [0xAB] (poke s0 0x200 [0x12, 0x00, 0x34]) with
      | .next (.ok, t) => t.bytesAt 0x200 3 == [0xAB, 0x00, 0x34]
      | _ => false) = true := by decide

/-- L5: no load after a step. -/
theorem test_load_program_refused : loadProgram [0xAB] { s0 with started := true } = .refused .loadNotAccepted := rfl

/-- Step runs a word placed where the fetch reads, as the first instruction after reset. -/
theorem test_first_instruction :
    next (step (State.reset.withFetchWord 16 0x6A42)) (fun t => t.getV 0xA == 0x42 && t.pc == 0x202) = true := by decide

/-! ### The hypotheses of the statements can be met -/

/-- A state with this word at PC. -/
def at0 (op : Nat) : State := s0.withFetchWord 16 op

theorem witness_DecodingAnEncodedInstructionGivesItBack :
    (Instr.drw 0xF 0xF 0xF).wf = true ∧ (Instr.sys 0x0E1).wf = true ∧ (Instr.sys 0xFEF).wf = true := by decide

theorem witness_EncodingADecodedWordGivesItBack :
    classify 0x0AE0 = .ok (.cls 0xA) ∧ classify 0x0000 = .ok (.sys 0) ∧ classify 0xFF65 = .ok (.load 0xF) := by decide

theorem witness_InvalidWordsAreThoseListed :
    classify 0x5001 = .error (.invalid 0x5001) ∧ classify 0x800D = .error (.invalid 0x800D) ∧
      classify 0x9FFF = .error (.invalid 0x9FFF) ∧ classify 0xE09F = .error (.invalid 0xE09F) ∧
      classify 0xF066 = .error (.invalid 0xF066) ∧ classify 0x0FFF = .ok (.sys 0xFFF) := by decide

theorem witness_StepRunsTheDecodedInstruction :
    let s : State := ({ s0 with pc := 0xFFE } : State).withFetchWord 16 0x6A42
    s.status = .running ∧ s.pc.toNat ≤ 0xFFE ∧
      classify (s.byteAt s.pc.toNat ++ s.byteAt (s.pc.toNat + 1)) = .ok (.ldImm 0xA 0x42) := by decide

/-- A running state whose word at PC is `op` steps to a next state and fetches `i`. -/
theorem fetches_of {s : State} {i : Instr} (h : s.status = .running) (hp : s.pc.toNat ≤ 0xFFE)
    (hc : classify s.wordAtPc = .ok i) : s.fetchesInstr i := ⟨⟨h, hp⟩, hc⟩

/-- A state whose word at PC is another instruction does not fetch `i`. -/
theorem not_fetches_of {s : State} {i : Instr} (j : Instr) (hc : classify s.wordAtPc = .ok j) (ne : j ≠ i) :
    ¬ s.fetchesInstr i := fun h => ne (Except.ok.inj (hc.symm.trans h.2))

theorem witness_EveryStepLatchesKeysAndCountsTimers :
    (∃ t, step (at0 0xF315) = .next t) ∧ (at0 0xF315).fetchesInstr (.ldDtVx 3) ∧
      (∃ t, step (at0 0xF318) = .next t) ∧ (at0 0xF318).fetchesInstr (.ldStVx 3) ∧
      (∃ t, step (at0 0xF507) = .next t) ∧ (at0 0xF507).fetchesInstr (.ldVxDt 5) ∧
      (supplyInput ⟨1, 2⟩ (at0 0x6000)).inputs = ⟨1, 2⟩ :: [] ∧
      (∀ x, ¬ (at0 0x6000).fetchesInstr (.ldDtVx x)) ∧ (∀ x, ¬ (at0 0x6000).fetchesInstr (.ldStVx x)) :=
  ⟨⟨_, rfl⟩, fetches_of rfl (by decide) (by decide), ⟨_, rfl⟩, fetches_of rfl (by decide) (by decide), ⟨_, rfl⟩,
    fetches_of rfl (by decide) (by decide), rfl,
    fun _ => not_fetches_of (.ldImm 0 0) (by decide) (by simp), fun _ => not_fetches_of (.ldImm 0 0) (by decide) (by simp)⟩

theorem witness_FetchPastTheEndFaults :
    ({ s0 with pc := 0xFFF } : State).status = .running ∧ 0xFFE < ({ s0 with pc := 0xFFF } : State).pc.toNat ∧
      ({ s0 with pc := 0x1000 } : State).status = .running ∧ 0xFFE < ({ s0 with pc := 0x1000 } : State).pc.toNat := by
  decide

theorem witness_InvalidAndSysWordsFault :
    (at0 0xFFFF).fetches ∧ classify (at0 0xFFFF).wordAtPc = .error (.invalid (at0 0xFFFF).wordAtPc) ∧
      (at0 0x0123).fetches ∧ ∃ a, classify (at0 0x0123).wordAtPc = .ok (.sys a) :=
  ⟨⟨rfl, by decide⟩, by decide, ⟨rfl, by decide⟩, 0x123, by decide⟩

theorem witness_EngineIsStuckUnlessRunning :
    ({ s0 with status := .faulted } : State).status = .faulted ∧ (s0.rejectLoad 3585).status = .loadFailed := by decide

theorem witness_EveryRunningStepAnswersANextState : s0.status = .running := rfl

/-- Every check fails somewhere and passes at its boundary. -/
theorem witness_InstructionsFaultExactlyWhenTheirCheckFails :
    (Instr.sys 0x123).faultIn s0 = some (.invalidInstruction 0x0123 0x1FE) ∧
      (Instr.ret 0).faultIn s0 = some (.stackUnderflow 0x00EE 0x1FE) ∧ (Instr.ret 0).faultIn { s0 with sp := 1 } = none ∧
      (Instr.call 0x200).faultIn { s0 with sp := 16 } = some (.stackOverflow 0x2200 0x1FE) ∧
      (Instr.call 0x200).faultIn { s0 with sp := 15 } = none ∧
      (Instr.skp 1).faultIn (s0.setV 1 0x10) = some (.invalidKeyIndex 0xE19E 0x1FE 0x10) ∧
      (Instr.sknp 1).faultIn (s0.setV 1 0x0F) = none ∧
      (Instr.drw 0 0 1).faultIn { s0 with i := 0x1000 } = some (.addressOutOfBounds (some 0xD001) 0x1FE 0x1000) ∧
      (Instr.drw 0 0 0).faultIn { s0 with i := 0xFFFF } = none ∧ (Instr.drw 0 0 0xF).faultIn { s0 with i := 0xFF1 } = none ∧
      (Instr.ldB 0).faultIn { s0 with i := 0xFFE } = some (.addressOutOfBounds (some 0xF033) 0x1FE 0x1000) ∧
      (Instr.store 0xF).faultIn { s0 with i := 0xFF0 } = none ∧
      (Instr.load 0xF).faultIn { s0 with i := 0xFF1 } = some (.addressOutOfBounds (some 0xFF65) 0x1FE 0x1000) := by decide

theorem witness_Inv : Inv (at0 0x2200) :=
  ⟨by decide, by decide, fun k => by simp [State.slot, at0, s0, State.withFetchWord, State.placeWord, State.memWrite,
    inBounds, State.construct], trivial⟩

theorem witness_EveryStepKeepsTheInvariant : Inv (at0 0x2200) ∧ ∃ t, step (at0 0x2200) = .next t :=
  ⟨witness_Inv, _, rfl⟩

theorem witness_ConstructionParametersNeverChange :
    (∃ t, step (at0 0x1200) = .next t) ∧ ∃ reply t, loadProgram [0x12, 0x00] s0 = .next (reply, t) :=
  ⟨⟨_, rfl⟩, _, _, rfl⟩

theorem witness_InputsReachOnlyTheirReaders :
    (∀ x k, Instr.skp 0 ≠ .rnd x k) ∧ ∀ x, Instr.rnd 0 0 ≠ .skp x ∧ Instr.rnd 0 0 ≠ .sknp x ∧ Instr.rnd 0 0 ≠ .ldVxK x := by
  simp

theorem witness_ParkedEngineStaysParked : Parked (at0 0x1200) := ⟨⟨rfl, by decide⟩, by decide⟩

theorem witness_CallThenReturnRestoresPc : ({ s0 with sp := 15 } : State).sp.val < 16 := by decide

theorem witness_StoredBytesAreFetched :
    let s : State := { s0 with i := 0xFFE }
    Memory.wf s.font s.mem = true ∧ s.i.toNat + (1 : Reg).toNat ≤ 0xFFF ∧ s.i.toNat ≤ (0xFFE : Word).toNat ∧
      (0xFFE : Word).toNat + 1 ≤ s.i.toNat + (1 : Reg).toNat := by decide

theorem witness_RegistersChangeOnlyAsListed :
    (∃ t, exec (.load 0xE) s0 = .next t) ∧ ¬ (Instr.load 0xE).writesReg s0.quirks 0xF ∧
      (∃ t, exec (.orReg 1 2) s0 = .next t) ∧ ¬ (Instr.orReg 1 2).writesReg s0.quirks 0xF :=
  ⟨⟨_, rfl⟩, (by decide : ¬ (0xF : Reg).toNat ≤ (0xE : Reg).toNat), ⟨_, rfl⟩, by simp [Instr.writesReg, s0, q0, State.construct]⟩

theorem witness_IndexChangesOnlyAsListed :
    (∃ t, exec (.store 0) s0 = .next t) ∧ ¬ (Instr.store 0).writesIndex s0.quirks :=
  ⟨⟨_, rfl⟩, by simp [Instr.writesIndex, s0, q0, State.construct]⟩

theorem witness_MemoryChangesOnlyWhereStored :
    (∃ t, exec (.ldB 0) { s0 with i := 0x300 } = .next t) ∧ (Instr.ldB 0).storeCount = 3 ∧
      (Instr.store 0xF).storeCount = 16 ∧ (Instr.drw 0 0 1).storeCount = 0 := ⟨⟨_, rfl⟩, by decide⟩

theorem witness_ScreenAndRedrawChangeOnlyAsListed :
    (∃ t, step ((at0 0x1200).setRedraw true) = .next t) ∧
      (∀ u, ¬ ((at0 0x1200).setRedraw true).fetchesInstr (.cls u)) ∧
      (∀ x y n, ¬ ((at0 0x1200).setRedraw true).fetchesInstr (.drw x y n)) ∧
      ((at0 0x1200).setRedraw true).redraw = true :=
  ⟨⟨_, rfl⟩, fun _ => not_fetches_of (.jp 0x200) (by decide) (by simp),
    fun _ _ _ => not_fetches_of (.jp 0x200) (by decide) (by simp), rfl⟩

theorem witness_StackKeysAndTimersChangeOnlyAsListed :
    (∃ t, exec (.jp 0x300) s0 = .next t) ∧ (∀ a, Instr.jp 0x300 ≠ .call a) ∧ (∀ u, Instr.jp 0x300 ≠ .ret u) ∧
      (∀ x, Instr.jp 0x300 ≠ .ldDtVx x) ∧ ∀ x, Instr.jp 0x300 ≠ .ldStVx x := ⟨⟨_, rfl⟩, by simp⟩

/-- An instruction of each PC role is fetched and its step answers a next state; a return both ways; no instruction. -/
theorem witness_PcMovesByTwoUnlessOverwritten :
    ((at0 0x6A42).fetchesInstr (.ldImm 0xA 0x42) ∧ ∃ t, step (at0 0x6A42) = .next t) ∧
      ((at0 0x3007).fetchesInstr (.seImm 0 7) ∧ ∃ t, step (at0 0x3007) = .next t) ∧
      ((at0 0xF40A).fetchesInstr (.ldVxK 4) ∧ ∃ t, step (at0 0xF40A) = .next t) ∧
      ((at0 0x00EE).fetchesInstr (.ret 0) ∧ ∃ t, step (at0 0x00EE) = .next t ∧ t.status ≠ .running) ∧
      (({ at0 0x00EE with sp := 1 } : State).fetchesInstr (.ret 0) ∧
        ∃ t, step { at0 0x00EE with sp := 1 } = .next t ∧ t.status = .running) ∧
      ((at0 0xFFFF).fetches ∧ (∃ t, step (at0 0xFFFF) = .next t) ∧ ∀ i, ¬ (at0 0xFFFF).fetchesInstr i) :=
  ⟨⟨fetches_of rfl (by decide) (by decide), _, rfl⟩, ⟨fetches_of rfl (by decide) (by decide), _, rfl⟩,
    ⟨fetches_of rfl (by decide) (by decide), _, rfl⟩, ⟨fetches_of rfl (by decide) (by decide), _, rfl, by decide⟩,
    ⟨fetches_of rfl (by decide) (by decide), _, rfl, rfl⟩,
    ⟨rfl, by decide⟩, ⟨_, rfl⟩, fun i h => by
      have bad : classify (at0 0xFFFF).wordAtPc = .error (.invalid 0xFFFF) := by decide
      cases bad.symm.trans h.2⟩

theorem witness_BitwiseInstructionsResetVfByQuirk :
    Instr.orReg 1 2 = .orReg 1 2 ∧ (0xFF : Byte) = (setRegs s0 [(1, 0x0F), (2, 0xF0)]).getV 1 |||
        (setRegs s0 [(1, 0x0F), (2, 0xF0)]).getV 2 ∧
      s0.quirks.vfReset = false ∧ ({ s0 with quirks := { q0 with vfReset := true } } : State).quirks.vfReset = true ∧
      (1 : Reg) ≠ 0xF := by decide

theorem witness_AddRegistersSetsCarry : (0 : Reg) ≠ 0xF := by decide

theorem witness_SubtractionsSetNoBorrow : (0 : Reg) ≠ 0xF := by decide

theorem witness_ShiftsTakeTheQuirksSource :
    (0x05 : Byte) = (if (s0.setV 2 0x05).quirks.shiftUsesVx = true then (s0.setV 2 0x05).getV 1 else (s0.setV 2 0x05).getV 2) ∧
      (1 : Reg) ≠ 0xF := by decide

theorem witness_ReturnPopsOrUnderflows :
    ({ s0 with sp := 1 } : State).sp.val = (0 : Fin 16).val + 1 ∧
      ({ s0 with sp := 16 } : State).sp.val = (15 : Fin 16).val + 1 ∧ s0.sp.val = 0 := by decide

theorem witness_CallPushesOrOverflows :
    s0.sp.val = (0 : Fin 16).val ∧ ({ s0 with sp := 15 } : State).sp.val = (15 : Fin 16).val ∧
      ({ s0 with sp := 16 } : State).sp.val = 16 := by decide

theorem witness_JumpWithOffsetAddsTheQuirksRegister :
    (0 : Reg).toNat = (if s0.quirks.jumpUsesVx = true then (0x210 : Addr).toNat / 256 else 0) ∧
      (2 : Reg).toNat = (if ({ q0 with jumpUsesVx := true } : Quirks).jumpUsesVx = true then (0x210 : Addr).toNat / 256 else 0) := by
  decide

/-- Each skip with its condition true and false. -/
theorem witness_SkipsAdvancePcOnTheirCondition :
    s0.getV 0 = 0 ∧ ¬ s0.getV 0 = 7 ∧ s0.getV 0 ≠ 7 ∧ ¬ s0.getV 0 ≠ 0 ∧ s0.getV 1 = s0.getV 2 ∧
      ¬ (s0.setV 1 3).getV 1 = (s0.setV 1 3).getV 2 := by decide

theorem witness_BcdStoreWritesThreeDigits :
    Memory.wf s0.font s0.mem = true ∧ ({ s0 with i := 0xFFD } : State).i.toNat + 2 ≤ 0xFFF ∧
      0xFFF < ({ s0 with i := 0xFFE } : State).i.toNat + 2 := by decide

theorem witness_BlockStoreCopiesRegisters :
    Memory.wf s0.font s0.mem = true ∧ ({ s0 with i := 0xFFF } : State).i.toNat + (0 : Reg).toNat ≤ 0xFFF ∧
      ({ s0 with i := 0xFF0 } : State).i.toNat + (0xF : Reg).toNat ≤ 0xFFF ∧
      0xFFF < ({ s0 with i := 0xFF1 } : State).i.toNat + (0xF : Reg).toNat ∧ (0xF : Reg).toNat ≤ (0xF : Reg).toNat ∧
      s0.quirks.indexIncrement = false ∧ ({ q0 with indexIncrement := true } : Quirks).indexIncrement = true := by decide

theorem witness_BlockLoadCopiesMemory :
    ({ s0 with i := 0xFFF } : State).i.toNat + (0 : Reg).toNat ≤ 0xFFF ∧ (0 : Reg).toNat < (1 : Reg).toNat ∧
      0xFFF < ({ s0 with i := 0x1000 } : State).i.toNat + (0 : Reg).toNat := by decide

/-- The zero-height sprite anywhere, and the highest row that fits. -/
theorem witness_DrawXorsTheSpriteAndFlagsCollision :
    ((0 : Nibble) = 0 ∨ ({ s0 with i := 0xFFFF } : State).i.toNat + (0 : Nibble).toNat ≤ 0x1000) ∧
      ((1 : Nibble) = 0 ∨ ({ s0 with i := 0xFFF } : State).i.toNat + (1 : Nibble).toNat ≤ 0x1000) ∧
      (poke { s0 with i := 0xFFF } 0xFFF [0x80]).spriteCovers 0 0 (1 : Nibble).toNat 0 0 ∧
      ¬ (poke { s0 with i := 0xFFF } 0xFFF [0x80]).spriteCovers 0 0 (1 : Nibble).toNat 0 1 ∧
      pixel (togglePixel s0.fb 0 0) 0 0 = true ∧ pixel s0.fb 0 0 = false := by
  refine ⟨by decide, by decide, ⟨0, 0, by decide, by decide, by decide, by decide, by decide⟩, ?_, by decide, by decide⟩
  rintro ⟨r, c, hr, -, -, h, -⟩
  obtain rfl : r = 0 := Nat.lt_one_iff.mp hr
  exact absurd h (by decide)

theorem witness_DrawPastTheEndFaults :
    (1 : Nibble) ≠ 0 ∧ 0x1000 < ({ s0 with i := 0x1000 } : State).i.toNat + (1 : Nibble).toNat ∧
      0x1000 < ({ s0 with i := 0xFF2 } : State).i.toNat + (0xF : Nibble).toNat := by decide

theorem witness_KeyWaitLatchesTheLowestKeyOrRewinds :
    (({ s0 with keys := 0x0220 } : State).keyDown 5 = true ∧
        ∀ j, j < 5 → ({ s0 with keys := 0x0220 } : State).keyDown j = false) ∧
      (({ s0 with keys := 0x8000 } : State).keyDown 15 = true ∧
        ∀ j, j < 15 → ({ s0 with keys := 0x8000 } : State).keyDown j = false) ∧
      ∀ k, k < 16 → s0.keyDown k = false := by decide

theorem witness_KeySkipsTestTheNamedKey :
    ((s0.setV 1 0x0F).getV 1).toNat ≤ 0xF ∧ 0xF < ((s0.setV 1 0x10).getV 1).toNat := by decide

theorem witness_RandomIsTheInputByteMasked : (at0 0xC00F).fetchesInstr (.rnd 0 0x0F) :=
  fetches_of rfl (by decide) (by decide)

theorem witness_ConstructionValues : s0 = State.construct q0 Config.customaryFont := rfl

theorem witness_LoadProgramCopiesOrRejects :
    s0.status = .running ∧ s0.started = false ∧ (List.replicate 3584 (0x11 : Byte)).length ≤ 3584 ∧ Inv s0 ∧
      3584 < (List.replicate 3585 (0x11 : Byte)).length ∧ ({ s0 with started := true } : State).started = true ∧
      ({ s0 with status := .faulted } : State).status ≠ .running :=
  ⟨rfl, rfl, by rw [List.length_replicate], ⟨rfl, by decide, fun k => by simp [State.slot, s0, State.construct], trivial⟩,
    by rw [List.length_replicate]; decide, rfl, by decide⟩

theorem witness_CleanEntryState : ∃ s, CleanEntry q0 Config.customaryFont [0x12, 0x00] s := ⟨_, rfl⟩

theorem witness_HostReadsWithoutSideEffect : 0xFFF ≤ 0xFFF ∧ 0xFFF < 0x1000 := by decide

end Sys2Proof.Tests
end

section
/-!
PROOFS. Register loads, arithmetic and logic (spec/41_alu.md).  Every instruction of the family leaves one of two
states: `V[x]` alone written (`setV`), or `V[x]` and then VF (`setVThenFlag`).  The frame and the read-back of each
are said once; an obligation is then the instruction's equation, by rfl, and its arithmetic.
-/

namespace Sys2Proof.Machine

variable {s t : State}

/-! ### The two states an ALU instruction leaves -/

/-- Memory is untouched wherever only the register file was replaced. -/
theorem onlyRegs_of_regs {dst : List Reg} (rest : t = { s with v := t.v }) (regs : SameRegsBut s t dst) :
    OnlyRegs s t dst :=
  ⟨rest, regs, State.byteAt_congr (congrArg State.font rest :) (congrArg State.mem rest :)⟩

theorem onlyRegs_setV (s : State) (x : Reg) (b : Byte) : OnlyRegs s (s.setV x b) [x] :=
  onlyRegs_of_regs (s.setV_eq x b) fun _ hr => s.getV_setV_other (List.ne_of_not_mem_cons hr) b

theorem onlyRegs_setVThenFlag (s : State) (x : Reg) (b : Byte) (flag : Bool) :
    OnlyRegs s (s.setVThenFlag x b flag) [x, 0xF] := by
  refine onlyRegs_of_regs rfl fun r hr => ?_
  obtain ⟨hx, hf⟩ : r ≠ x ∧ r ≠ 0xF := by simpa using hr
  rw [State.getV_setVThenFlag, vf_eq, if_neg hf, if_neg hx]

/-- VF is written last (R160), so it holds the flag also when it is the destination. -/
theorem State.getV_setVThenFlag_vf (s : State) (x : Reg) (b : Byte) (flag : Bool) :
    (s.setVThenFlag x b flag).getV 0xF = flagByte flag := by
  rw [State.getV_setVThenFlag, vf_eq, if_pos rfl]

theorem State.getV_setVThenFlag_dest {x : Reg} (hx : x ≠ 0xF) (s : State) (b : Byte) (flag : Bool) :
    (s.setVThenFlag x b flag).getV x = b := by
  rw [State.getV_setVThenFlag, vf_eq, if_neg hx, if_pos rfl]

/-- A flag that is the outcome of a comparison. -/
theorem flagByte_decide (p : Prop) [Decidable p] : flagByte (decide p) = if p then 1 else 0 := by
  simp only [flagByte_eq, decide_eq_true_eq]

/-! ### Addition -/

/-- Settles O29: only V[x] is written, and the sum of two bytes is a `BitVec` sum. -/
theorem addImmediateWrapsWithoutFlag : Obligations.AddImmediateWrapsWithoutFlag := by
  intro s x imm
  refine ⟨s.setV x (s.getV x + imm), rfl, onlyRegs_setV .., ?_⟩
  rw [State.getV_setV_self, BitVec.toNat_add]

/-- Settles O31: V[x] and then VF is written, so the carry survives also when x is F. -/
theorem addRegistersSetsCarry : Obligations.AddRegistersSetsCarry := by
  intro s x y
  refine ⟨s.setVThenFlag x (s.getV x + s.getV y) (carryOut (s.getV x) (s.getV y)), rfl,
    onlyRegs_setVThenFlag .., fun hx => ?_, ?_⟩
  · rw [State.getV_setVThenFlag_dest hx, BitVec.toNat_add]
  · rw [State.getV_setVThenFlag_vf, carryOut, flagByte_decide]

/-! ### OR, AND and XOR -/

/-- With Q_VF_RESET a bitwise instruction ends as one whose flag is always 0. -/
theorem State.vfResetQuirk_setV_on (q : s.quirks.vfReset = true) (x : Reg) (b : Byte) :
    (s.setV x b).vfResetQuirk = s.setVThenFlag x b false := by
  rw [State.vfResetQuirk, State.setV_quirks, if_pos q, State.setVThenFlag]

theorem State.vfResetQuirk_setV_off (q : s.quirks.vfReset = false) (x : Reg) (b : Byte) :
    (s.setV x b).vfResetQuirk = s.setV x b := by
  rw [State.vfResetQuirk, State.setV_quirks, q, if_neg Bool.false_ne_true]

/-- The three bitwise instructions differ in their result only. -/
theorem exec_bitwise {x y : Reg} {i : Instr} {result : Byte}
    (h : i = .orReg x y ∧ result = s.getV x ||| s.getV y ∨ i = .andReg x y ∧ result = s.getV x &&& s.getV y ∨
      i = .xorReg x y ∧ result = s.getV x ^^^ s.getV y) :
    exec i s = .next (s.setV x result).vfResetQuirk := by
  obtain ⟨rfl, rfl⟩ | ⟨rfl, rfl⟩ | ⟨rfl, rfl⟩ := h <;> rfl

/-- Settles O30, by the two states the forced reset of VF distinguishes. -/
theorem bitwiseInstructionsResetVfByQuirk : Obligations.BitwiseInstructionsResetVfByQuirk := by
  intro s x y i result h
  refine ⟨_, exec_bitwise h, fun on => ?_, fun off => ?_⟩
  · rw [State.vfResetQuirk_setV_on on]
    exact ⟨onlyRegs_setVThenFlag .., State.getV_setVThenFlag_vf .., fun hx => State.getV_setVThenFlag_dest hx ..⟩
  · rw [State.vfResetQuirk_setV_off off]
    exact ⟨onlyRegs_setV .., State.getV_setV_self ..⟩

end Sys2Proof.Machine
end

section
/-!
PROOFS. Control flow (spec/42_control_flow.md).  The four register skips differ in their condition only: each leaves
`skipIf` of the Boolean that decides it, and what a skip does to PC and to the rest of the state is said once.
-/

namespace Sys2Proof.Machine

variable {s t : State}

/-- Registers and memory are untouched wherever only PC was replaced. -/
theorem onlyPc_of_pc (rest : t = { s with pc := t.pc }) : OnlyPc s t :=
  ⟨rest, fun r _ => State.getV_congr (congrArg State.v rest :) r,
    State.byteAt_congr (congrArg State.font rest :) (congrArg State.mem rest :)⟩

theorem onlyPc_skipIf (s : State) (c : Bool) : OnlyPc s (s.skipIf c) :=
  onlyPc_of_pc (by rw [State.skipIf_eq])

theorem State.skipIf_pc (s : State) (c : Bool) : (s.skipIf c).pc = if c then s.pc + 2 else s.pc := by
  rw [State.skipIf_eq]

/-- The four register skips differ in the condition they decide only. -/
theorem exec_skip {x y : Reg} {imm : Byte} {i : Instr} {cond : Prop}
    (h : i = .seImm x imm ∧ (cond ↔ s.getV x = imm) ∨ i = .sneImm x imm ∧ (cond ↔ s.getV x ≠ imm) ∨
      i = .seReg x y ∧ (cond ↔ s.getV x = s.getV y) ∨ i = .sneReg x y ∧ (cond ↔ s.getV x ≠ s.getV y)) :
    ∃ c : Bool, exec i s = .next (s.skipIf c) ∧ (c = true ↔ cond) := by
  obtain ⟨rfl, hc⟩ | ⟨rfl, hc⟩ | ⟨rfl, hc⟩ | ⟨rfl, hc⟩ := h
  · exact ⟨_, rfl, beq_iff_eq.trans hc.symm⟩
  · exact ⟨_, rfl, bne_iff_ne.trans hc.symm⟩
  · exact ⟨_, rfl, beq_iff_eq.trans hc.symm⟩
  · exact ⟨_, rfl, bne_iff_ne.trans hc.symm⟩

/-- Settles O39: each skip is `skipIf` of a Boolean that decides its condition. -/
theorem skipsAdvancePcOnTheirCondition : Obligations.SkipsAdvancePcOnTheirCondition := by
  intro s x y imm i cond h
  obtain ⟨c, he, hc⟩ := exec_skip h
  refine ⟨s.skipIf c, he, onlyPc_skipIf s c, fun hold => ?_, fun fail => ?_⟩
  · rw [State.skipIf_pc, if_pos (hc.mpr hold), BitVec.toNat_add]
    rfl
  · rw [State.skipIf_pc, if_neg (mt hc.mp fail)]

end Sys2Proof.Machine
end

section
/-!
PROOFS. The display (spec/44_display.md).
-/

namespace Sys2Proof.Machine

/-- Only FB is replaced, so registers and memory read as before. -/
theorem onlyFb_setFb (s : State) (f : Framebuffer) :
    s.setFb f = { s with fb := f } ∧ SameRegsBut s (s.setFb f) [] ∧ SameBytes s (s.setFb f) :=
  ⟨rfl, fun r _ => State.getV_congr (s.setFb_v f) r, State.byteAt_congr (s.setFb_font f) (s.setFb_mem f)⟩

/-- Settles O46: CLS replaces FB by the cleared screen, in which no pixel is set. -/
theorem clearScreenClearsEveryPixel : Obligations.ClearScreenClearsEveryPixel := by
  intro s u
  obtain ⟨rest, regs, bytes⟩ := onlyFb_setFb s clearedFb
  exact ⟨s.setFb clearedFb, rfl, rest, regs, bytes, fun x y _ _ => pixel_clearedFb x y⟩

end Sys2Proof.Machine
end

section
/-!
PROOFS. Timers, keys and random numbers (spec/45_timers_keys_random.md).  The two outcomes of LD Vx,K are said once, by
what `firstKey` finds.
-/

namespace Sys2Proof.Machine

variable {s : State}

theorem exec_ldVxK_of_some {k : Nat} (h : firstKey s.keys = some k) (x : Reg) :
    exec (.ldVxK x) s = .next (s.setV x (BitVec.ofNat 8 k)) := by
  rw [exec, execLdVxK, h]

theorem exec_ldVxK_of_none (h : firstKey s.keys = none) (x : Reg) :
    exec (.ldVxK x) s = .next (s.setPc (s.pc - 2)) := by
  rw [exec, execLdVxK, h]

/-- Settles O50: `firstKey` finds the lowest pressed key, whose number fits the byte written, or none. -/
theorem keyWaitLatchesTheLowestKeyOrRewinds : Obligations.KeyWaitLatchesTheLowestKeyOrRewinds := by
  intro s x
  refine ⟨fun k hk down lower => ?_, fun up => exec_ldVxK_of_none (firstKey_eq_none.mpr up) x⟩
  have first : firstKey s.keys = some k := firstKey_eq_some.mpr ⟨hk, down, lower⟩
  refine ⟨_, exec_ldVxK_of_some first x, onlyRegs_setV .., ?_⟩
  rw [State.getV_setV_self, BitVec.toNat_ofNat, Nat.mod_eq_of_lt (hk.trans (by decide))]

end Sys2Proof.Machine
end

section
/-!
PROOFS. The decoder and the encoder (spec/30_encoding.md).  Only the rows of a word's own family can be hit, so the
first matching row of the opcode map is the row the two-level dispatch selects; the other statements about words are
then about the dispatch, whose arms are tests on the fields.
-/

namespace Sys2Proof

variable {op : Word} {i : Instr}

/-! ### The first matching row is the dispatch -/

/-- The instruction of the first of some rows that matches (R107). -/
def firstRow (op : Word) (rows : List OpRow) : Option Instr :=
  (rows.find? fun r => r.hits op).map fun r => r.build (fields op)

/-- The rows of the opcode map of one family (R106). -/
def familyRows (family : Nat) : List OpRow := opcodeMap.filter fun r => r.mtch.toNat / 4096 == family

/-- Every mask keeps the family nibble whole, so a row hit belongs to the word's family. -/
theorem family_of_hits {r : OpRow} (mem : r ∈ opcodeMap) (hit : r.hits op = true) :
    r.mtch.toNat / 4096 = (fields op).family.toNat := by
  have masks : ∀ r ∈ opcodeMap, r.mask.extractLsb' 12 4 = 0xF := by decide
  obtain ⟨family, -, -, -⟩ := (r.hits_iff op).mp hit
  rw [masks r mem, nibble_and_ones, ← BitVec.toNat_inj, BitVec.extractLsb'_toNat, BitVec.extractLsb'_toNat,
    Nat.shiftRight_eq_div_pow, Nat.shiftRight_eq_div_pow] at family
  have := op.isLt
  have := r.mtch.isLt
  rw [(fields_toNat op).1]
  omega

theorem firstRow_opcodeMap (op : Word) :
    firstRow op opcodeMap = firstRow op (familyRows (fields op).family.toNat) := by
  rw [firstRow, firstRow, familyRows, List.find?_filter]
  congr 1
  refine List.find?_congr fun r mem => ?_
  rw [Bool.eq_iff_iff, decide_eq_true_iff, beq_iff_eq]
  exact ⟨fun hit => ⟨family_of_hits mem hit, hit⟩, And.right⟩

theorem firstRow_cons (r : OpRow) (rows : List OpRow) :
    firstRow op (r :: rows) = if r.hits op = true then some (r.build (fields op)) else firstRow op rows := by
  rw [firstRow, List.find?_cons]
  cases r.hits op <;> rfl

section
variable {family : Nat} (h : (fields op).family.toNat = family) {n : Nat} {m : Word} {b : Fields → Instr}
  {rows : List OpRow}
include h

/-- A row of the word's family with the mask 0xF000 matches. -/
theorem firstRow_cons_family (hm : m.toNat % 4096 = 0 ∧ m.toNat / 4096 = family) :
    firstRow op (⟨n, 0xF000, m, b⟩ :: rows) = some (b (fields op)) := by
  rw [firstRow_cons, if_pos ((hits_family hm.1).mpr ?_)]
  rw [hm.2, ← h, (fields_toNat op).1]

/-- A row of the word's family with the mask 0xF00F matches by nib. -/
theorem firstRow_cons_nib (hm : m.toNat / 16 % 256 = 0 ∧ m.toNat / 4096 = family) :
    firstRow op (⟨n, 0xF00F, m, b⟩ :: rows) =
      if (fields op).nib.toNat = m.toNat % 16 then some (b (fields op)) else firstRow op rows := by
  obtain ⟨hf, -, -, -, hn, -⟩ := fields_toNat op
  simp only [firstRow_cons, hits_family_nib hm.1, hm.2, ← h, hf, hn, true_and]

/-- A row of the word's family with the mask 0xF0FF matches by imm. -/
theorem firstRow_cons_imm (hm : m.toNat / 256 % 16 = 0 ∧ m.toNat / 4096 = family) :
    firstRow op (⟨n, 0xF0FF, m, b⟩ :: rows) =
      if (fields op).imm.toNat = m.toNat % 256 then some (b (fields op)) else firstRow op rows := by
  obtain ⟨hf, -, -, -, -, hk⟩ := fields_toNat op
  simp only [firstRow_cons, hits_family_imm hm.1, hm.2, ← h, hf, hk, true_and]

end

/-! The families that dispatch once more (R106). -/

theorem firstRow_family0 (h : (fields op).family.toNat = 0) :
    firstRow op (familyRows 0) = dispatchFamily0 (fields op) := by
  have rows : familyRows 0 = opcodeMapA.take 3 := rfl
  simp (disch := decide) only [rows, opcodeMapA, List.take, firstRow_cons_imm h, firstRow_cons_family h]
  simp only [dispatchFamily0, ← BitVec.toNat_inj]
  rfl

theorem firstRow_family5 (h : (fields op).family.toNat = 5) :
    firstRow op (familyRows 5) = if (fields op).nib = 0 then some (.seReg (fields op).x (fields op).y) else none := by
  have rows : familyRows 5 = [⟨8, 0xF00F, 0x5000, fun f => .seReg f.x f.y⟩] := rfl
  rw [rows, firstRow_cons_nib h (by decide)]
  simp only [← BitVec.toNat_inj]
  rfl

theorem firstRow_family8 (h : (fields op).family.toNat = 8) :
    firstRow op (familyRows 8) = dispatchFamily8 (fields op) := by
  have rows : familyRows 8 = opcodeMapB.take 9 := rfl
  simp (disch := decide) only [rows, opcodeMapB, List.take, firstRow_cons_nib h]
  rw [dispatchFamily8]
  symm
  split <;> simp_all [firstRow]

theorem firstRow_family9 (h : (fields op).family.toNat = 9) :
    firstRow op (familyRows 9) = if (fields op).nib = 0 then some (.sneReg (fields op).x (fields op).y) else none := by
  have rows : familyRows 9 = [⟨20, 0xF00F, 0x9000, fun f => .sneReg f.x f.y⟩] := rfl
  rw [rows, firstRow_cons_nib h (by decide)]
  simp only [← BitVec.toNat_inj]
  rfl

theorem firstRow_familyE (h : (fields op).family.toNat = 0xE) :
    firstRow op (familyRows 0xE) = dispatchFamilyE (fields op) := by
  have rows : familyRows 0xE =
      [⟨25, 0xF0FF, 0xE09E, fun f => .skp f.x⟩, ⟨26, 0xF0FF, 0xE0A1, fun f => .sknp f.x⟩] := rfl
  rw [rows, firstRow_cons_imm h (by decide), firstRow_cons_imm h (by decide)]
  simp only [dispatchFamilyE, ← BitVec.toNat_inj]
  rfl

theorem firstRow_familyF (h : (fields op).family.toNat = 0xF) :
    firstRow op (familyRows 0xF) = dispatchFamilyF (fields op) := by
  have rows : familyRows 0xF = opcodeMapC.drop 6 := rfl
  simp (disch := decide) only [rows, opcodeMapC, List.drop, firstRow_cons_imm h]
  rw [dispatchFamilyF]
  symm
  split <;> simp_all [firstRow]

/-- The first matching row is what the dispatch selects (R106), family by family. -/
theorem firstRow_eq_dispatch (op : Word) : firstRow op opcodeMap = dispatch (fields op) := by
  rw [firstRow_opcodeMap, dispatch]
  have := (fields op).family.isLt
  interval_cases h : (fields op).family.toNat
  · exact firstRow_family0 h
  · exact firstRow_cons_family h (by decide)
  · exact firstRow_cons_family h (by decide)
  · exact firstRow_cons_family h (by decide)
  · exact firstRow_cons_family h (by decide)
  · exact firstRow_family5 h
  · exact firstRow_cons_family h (by decide)
  · exact firstRow_cons_family h (by decide)
  · exact firstRow_family8 h
  · exact firstRow_family9 h
  · exact firstRow_cons_family h (by decide)
  · exact firstRow_cons_family h (by decide)
  · exact firstRow_cons_family h (by decide)
  · exact firstRow_cons_family h (by decide)
  · exact firstRow_familyE h
  · exact firstRow_familyF h

/-! ### Classification through the dispatch -/

/-- All 16 families have a row (R110). -/
theorem recognizedFamily_all (family : Nibble) : recognizedFamily family = true := by
  revert family
  decide

/-- A word is the instruction the dispatch selects, and INVALID where it selects none. -/
theorem classify_eq_dispatch (op : Word) :
    classify op = (dispatch (fields op)).elim (.error (.invalid op)) .ok := by
  rw [← firstRow_eq_dispatch, firstRow, classify, if_pos (recognizedFamily_all _)]
  cases opcodeMap.find? fun r => r.hits op <;> rfl

theorem classify_eq_ok : classify op = .ok i ↔ dispatch (fields op) = some i := by
  rw [classify_eq_dispatch]
  cases dispatch (fields op) <;> simp

theorem classify_eq_error {r : Reject} : classify op = .error r ↔ dispatch (fields op) = none ∧ r = .invalid op := by
  rw [classify_eq_dispatch]
  cases dispatch (fields op) <;> simp [eq_comm]

/-- Settles O5: every family has a row. -/
theorem noWordHasAnUnknownFamily : Obligations.NoWordHasAnUnknownFamily := by
  refine ⟨recognizedFamily_all, fun op w h => ?_⟩
  have := (classify_eq_error.mp h).2
  cases this

/-- Settles O3: both select the first matching row of the word's family. -/
theorem twoLevelDispatchIsTheFirstMatchingRow : Obligations.TwoLevelDispatchIsTheFirstMatchingRow := by
  intro op
  rw [classify_eq_dispatch]
  cases dispatch (fields op) <;> rfl

/-- Settles O6: each vector is evaluated by the decoder. -/
theorem sampleWordsDecode : Obligations.SampleWordsDecode := by
  refine ⟨?_, ?_, ?_, ?_, ?_, ?_, ?_, ?_, ?_, ?_, ?_, ?_⟩ <;> decide

/-! ### The invalid words -/

theorem dispatchFamily8_eq_none (f : Fields) :
    dispatchFamily8 f = none ↔ f.nib ∈ [0x8#4, 0x9#4, 0xA#4, 0xB#4, 0xC#4, 0xD#4, 0xF#4] := by
  have := f.nib.isLt
  simp only [List.mem_cons, List.not_mem_nil, ← BitVec.toNat_inj]
  rw [dispatchFamily8]
  interval_cases f.nib.toNat <;> simp

theorem dispatchFamilyE_eq_none (f : Fields) : dispatchFamilyE f = none ↔ f.imm ∉ [0x9E#8, 0xA1#8] := by
  rw [dispatchFamilyE]
  split <;> simp_all

theorem dispatchFamilyF_eq_none (f : Fields) :
    dispatchFamilyF f = none ↔
      f.imm ∉ [0x07#8, 0x0A#8, 0x15#8, 0x18#8, 0x1E#8, 0x29#8, 0x33#8, 0x55#8, 0x65#8] := by
  simp only [List.mem_cons, List.not_mem_nil, ← BitVec.toNat_inj]
  rw [dispatchFamilyF]
  split <;> simp_all

/-- The words no row matches, family by family (R109). -/
theorem dispatch_eq_none (f : Fields) :
    dispatch f = none ↔
      (f.family = 0x5 ∧ f.nib ≠ 0) ∨ (f.family = 0x8 ∧ dispatchFamily8 f = none) ∨ (f.family = 0x9 ∧ f.nib ≠ 0) ∨
        (f.family = 0xE ∧ dispatchFamilyE f = none) ∨ (f.family = 0xF ∧ dispatchFamilyF f = none) := by
  have family0 : dispatchFamily0 f ≠ none := by
    rw [dispatchFamily0]
    split <;> [skip; split] <;> exact Option.some_ne_none _
  have := f.family.isLt
  simp only [← BitVec.toNat_inj (x := f.family)]
  rw [dispatch]
  interval_cases f.family.toNat <;> simp [family0]

/-! ### Encoding: the fields of a word make the word again (R102), in each of the three layouts of R108 -/

section
variable {c n : Nibble} {k : Byte} (hf : (fields op).family.toNat = c.toNat)
include hf

theorem family_addr_eq : c ++ (fields op).addr = op := by
  obtain ⟨f, a, -⟩ := fields_toNat op
  apply BitVec.eq_of_toNat_eq
  rw [append_toNat]
  omega

theorem family_x_imm_eq (hk : (fields op).imm.toNat = k.toNat) : c ++ (fields op).x ++ k = op := by
  obtain ⟨f, -, x, -, -, imm⟩ := fields_toNat op
  apply BitVec.eq_of_toNat_eq
  rw [append_toNat, append_toNat]
  omega

theorem family_x_y_nib_eq (hn : (fields op).nib.toNat = n.toNat) : c ++ (fields op).x ++ (fields op).y ++ n = op := by
  obtain ⟨f, -, x, y, nib, -⟩ := fields_toNat op
  apply BitVec.eq_of_toNat_eq
  rw [append_toNat, append_toNat, append_toNat]
  omega

end

theorem addrImm_fields (op : Word) : addrImm (fields op).addr = (fields op).imm := by
  obtain ⟨-, a, -, -, -, imm⟩ := fields_toNat op
  apply BitVec.eq_of_toNat_eq
  rw [addrImm, BitVec.extractLsb'_toNat, Nat.shiftRight_zero]
  omega

theorem encode_of_dispatchFamily0 (hf : (fields op).family.toNat = 0)
    (h : dispatchFamily0 (fields op) = some i) : i.wf = true ∧ encode i = op := by
  rw [dispatchFamily0] at h
  split at h
  case isTrue hk => cases h; exact ⟨rfl, family_x_imm_eq hf (congrArg BitVec.toNat hk)⟩
  split at h
  case isTrue hk => cases h; exact ⟨rfl, family_x_imm_eq hf (congrArg BitVec.toNat hk)⟩
  case isFalse hcls hret =>
    cases h
    refine ⟨?_, family_addr_eq hf⟩
    rw [Instr.wf, addrImm_fields, Bool.and_eq_true, bne_iff_ne, bne_iff_ne]
    exact ⟨hcls, hret⟩

theorem encode_of_dispatchFamily8 (hf : (fields op).family.toNat = 8)
    (h : dispatchFamily8 (fields op) = some i) : i.wf = true ∧ encode i = op := by
  rw [dispatchFamily8] at h
  split at h <;> cases h <;> exact ⟨rfl, family_x_y_nib_eq hf ‹_›⟩

theorem encode_of_dispatchFamilyE (hf : (fields op).family.toNat = 0xE)
    (h : dispatchFamilyE (fields op) = some i) : i.wf = true ∧ encode i = op := by
  rw [dispatchFamilyE] at h
  split at h
  case isTrue hk => cases h; exact ⟨rfl, family_x_imm_eq hf (congrArg BitVec.toNat hk)⟩
  split at h
  case isTrue hk => cases h; exact ⟨rfl, family_x_imm_eq hf (congrArg BitVec.toNat hk)⟩
  case isFalse => cases h

theorem encode_of_dispatchFamilyF (hf : (fields op).family.toNat = 0xF)
    (h : dispatchFamilyF (fields op) = some i) : i.wf = true ∧ encode i = op := by
  rw [dispatchFamilyF] at h
  split at h <;> cases h <;> exact ⟨rfl, family_x_imm_eq hf ‹_›⟩

/-- A decoded instruction has the word's own fields, which make the word. -/
theorem encode_of_dispatch (h : dispatch (fields op) = some i) : i.wf = true ∧ encode i = op := by
  rw [dispatch] at h
  -- the arms in the order of the families: `h_1` is family 0x0, `h_17` no family
  split at h <;> rename_i hf
  case h_1 => exact encode_of_dispatchFamily0 hf h
  case h_6 | h_10 =>
    split at h
    case isTrue hn => cases h; exact ⟨rfl, family_x_y_nib_eq hf (congrArg BitVec.toNat hn)⟩
    case isFalse => cases h
  case h_9 => exact encode_of_dispatchFamily8 hf h
  case h_15 => exact encode_of_dispatchFamilyE hf h
  case h_16 => exact encode_of_dispatchFamilyF hf h
  case h_2 | h_3 | h_11 | h_12 => cases h; exact ⟨rfl, family_addr_eq hf⟩
  case h_4 | h_5 | h_7 | h_8 | h_13 => cases h; exact ⟨rfl, family_x_imm_eq hf rfl⟩
  case h_14 => cases h; exact ⟨rfl, family_x_y_nib_eq hf rfl⟩
  case h_17 => cases h

/-- Settles O2: classification is the dispatch, and a dispatched instruction has the word's own fields. -/
theorem encodingADecodedWordGivesItBack : Obligations.EncodingADecodedWordGivesItBack :=
  fun _ _ h => encode_of_dispatch (classify_eq_ok.mp h)

/-! ### Decoding what was encoded -/

section
variable (c n : Nibble) (a : Addr) (x y : Reg) (k : Byte)

theorem fields_family_addr :
    (fields (c ++ a)).family = c ∧ (fields (c ++ a)).addr = a ∧ (fields (c ++ a)).imm = addrImm a := by
  obtain ⟨f, addr, -, -, -, imm⟩ := fields_toNat (c ++ a)
  rw [append_toNat] at f addr imm
  have := a.isLt
  refine ⟨BitVec.eq_of_toNat_eq ?_, BitVec.eq_of_toNat_eq ?_, BitVec.eq_of_toNat_eq ?_⟩
  · omega
  · omega
  · rw [addrImm, BitVec.extractLsb'_toNat, Nat.shiftRight_zero]
    omega

theorem fields_family_x_imm :
    (fields (c ++ x ++ k)).family = c ∧ (fields (c ++ x ++ k)).x = x ∧ (fields (c ++ x ++ k)).imm = k := by
  obtain ⟨f, -, hx, -, -, imm⟩ := fields_toNat (c ++ x ++ k)
  rw [append_toNat, append_toNat] at f hx imm
  have := x.isLt
  have := k.isLt
  refine ⟨BitVec.eq_of_toNat_eq ?_, BitVec.eq_of_toNat_eq ?_, BitVec.eq_of_toNat_eq ?_⟩ <;> omega

theorem fields_family_x_y_nib :
    (fields (c ++ x ++ y ++ n)).family = c ∧ (fields (c ++ x ++ y ++ n)).x = x ∧ (fields (c ++ x ++ y ++ n)).y = y ∧
      (fields (c ++ x ++ y ++ n)).nib = n := by
  obtain ⟨f, -, hx, hy, nib, -⟩ := fields_toNat (c ++ x ++ y ++ n)
  rw [append_toNat, append_toNat, append_toNat] at f hx hy nib
  have := x.isLt
  have := y.isLt
  have := n.isLt
  refine ⟨BitVec.eq_of_toNat_eq ?_, BitVec.eq_of_toNat_eq ?_, BitVec.eq_of_toNat_eq ?_, BitVec.eq_of_toNat_eq ?_⟩ <;>
    omega

end

/-- The dispatch of an encoded instruction is decided by the constants of its layout. -/
theorem dispatch_encode (wf : i.wf = true) : dispatch (fields (encode i)) = some i := by
  cases i
  case sys a =>
    obtain ⟨f, addr, imm⟩ := fields_family_addr 0#4 a
    simp_all [encode, dispatch, dispatchFamily0, Instr.wf]
  case jp a | call a | ldI a | jpV0 a => simp [encode, dispatch, fields_family_addr]
  case drw x y n | seReg x y | sneReg x y => simp [encode, dispatch, fields_family_x_y_nib]
  case ldReg x y | orReg x y | andReg x y | xorReg x y | addReg x y | subReg x y | shr x y | subnReg x y | shl x y =>
    simp [encode, dispatch, dispatchFamily8, fields_family_x_y_nib]
  all_goals simp [encode, dispatch, dispatchFamily0, dispatchFamilyE, dispatchFamilyF, fields_family_x_imm]

theorem classify_encode (wf : i.wf = true) : classify (encode i) = .ok i := classify_eq_ok.mpr (dispatch_encode wf)

/-- Settles O1: the two bytes make the word again, whose first matching row is the instruction's own. -/
theorem decodingAnEncodedInstructionGivesItBack : Obligations.DecodingAnEncodedInstructionGivesItBack := by
  intro i rest wf
  rw [encodeBytes, List.cons_append, List.cons_append, List.nil_append, decode, beWord_hiByte_loByte,
    classify_encode wf]
  rfl

/-- Settles O4: INVALID is what the dispatch does not select, and the SYS words are those of family 0 that it selects
last. -/
theorem invalidWordsAreThoseListed : Obligations.InvalidWordsAreThoseListed := by
  refine fun op => ⟨?_, ?_, ?_⟩
  · rw [classify_eq_error, dispatch_eq_none, dispatchFamily8_eq_none, dispatchFamilyE_eq_none,
      dispatchFamilyF_eq_none, and_iff_left rfl]
  · rintro ⟨a, h⟩
    obtain ⟨wf, rfl⟩ := encode_of_dispatch (classify_eq_ok.mp h)
    obtain ⟨f, -, imm⟩ := fields_family_addr 0#4 a
    rw [encode, f, imm]
    simpa [Instr.wf] using wf
  · rintro ⟨f, imm⟩
    refine ⟨(fields op).addr, classify_eq_ok.mpr ?_⟩
    rw [dispatch, f]
    simp_all [dispatchFamily0]

end Sys2Proof
end

section
/-!
PROOFS. What every instruction does, as one equation: the fault its check raises, or its effect as the record update
that lists every field it writes.  The frame statements, the invariant and the two-run statements follow from it.
-/

namespace Sys2Proof

open Sys2Proof.Machine

/-! ### The effect of an instruction -/

/-- The slot below SP, the one RET pops (R38). -/
def topSlot (s : State) : Fin 16 := ⟨s.sp.val - 1, Nat.lt_of_le_of_lt (Nat.sub_le_sub_right s.sp_le 1) (by decide)⟩

/-- The PC a skip leaves (R216). -/
def skipPc (s : State) (c : Bool) : Word := if c then s.pc + 2 else s.pc

/-- The registers an instruction leaves that writes V[x] and then VF (R160). -/
def flagRegs (s : State) (x : Reg) (b : Byte) (flag : Bool) : RegFile := (s.setVThenFlag x b flag).v

/-- What an instruction leaves where its check passes: every field not listed is the one before. -/
def Instr.effect (i : Instr) (s : State) : State :=
  match i with
  | .cls _ => { s with fb := clearedFb }
  | .ret _ => { s with pc := s.slot (topSlot s), sp := (topSlot s).castSucc }
  | .sys _ => s
  | .jp a => { s with pc := addrWord a }
  | .call a =>
    { s with pc := addrWord a, stack := s.stack.setIfInBounds s.sp.val s.pc, sp := Fin.ofNat 17 (s.sp.val + 1) }
  | .seImm x k => { s with pc := skipPc s (s.getV x == k) }
  | .sneImm x k => { s with pc := skipPc s (s.getV x != k) }
  | .seReg x y => { s with pc := skipPc s (s.getV x == s.getV y) }
  | .sneReg x y => { s with pc := skipPc s (s.getV x != s.getV y) }
  | .skp x => { s with pc := skipPc s (s.keyDown (s.getV x).toNat) }
  | .sknp x => { s with pc := skipPc s (!s.keyDown (s.getV x).toNat) }
  | .jpV0 a => { s with pc := addrWord a + byteWord (s.getV (s.jumpReg a)) }
  | .ldImm x k => { s with v := (s.setV x k).v }
  | .addImm x k => { s with v := (s.setV x (s.getV x + k)).v }
  | .ldReg x y => { s with v := (s.setV x (s.getV y)).v }
  | .orReg x y => { s with v := (s.setV x (s.getV x ||| s.getV y)).vfResetQuirk.v }
  | .andReg x y => { s with v := (s.setV x (s.getV x &&& s.getV y)).vfResetQuirk.v }
  | .xorReg x y => { s with v := (s.setV x (s.getV x ^^^ s.getV y)).vfResetQuirk.v }
  | .addReg x y => { s with v := flagRegs s x (s.getV x + s.getV y) (carryOut (s.getV x) (s.getV y)) }
  | .subReg x y => { s with v := flagRegs s x (s.getV x - s.getV y) (noBorrow (s.getV x) (s.getV y)) }
  | .subnReg x y => { s with v := flagRegs s x (s.getV y - s.getV x) (noBorrow (s.getV y) (s.getV x)) }
  | .shr x y => { s with v := flagRegs s x (s.shiftSource x y >>> 1) (lowBit (s.shiftSource x y)) }
  | .shl x y => { s with v := flagRegs s x (s.shiftSource x y <<< 1) (highBit (s.shiftSource x y)) }
  | .rnd x k => { s with v := (s.setV x (s.rnd &&& k)).v }
  | .ldVxDt x => { s with v := (s.setV x s.dt).v }
  | .ldVxK x =>
    { s with
      v := (firstKey s.keys).elim s.v fun k => (s.setV x (BitVec.ofNat 8 k)).v
      pc := (firstKey s.keys).elim (s.pc - 2) fun _ => s.pc }
  | .ldDtVx x => { s with dt := s.getV x }
  | .ldStVx x => { s with st := s.getV x }
  | .ldI a => { s with i := addrWord a }
  | .ldF x => { s with i := BitVec.ofNat 16 (Config.glyphBytes * (s.getV x).toNat) }
  | .addI x =>
    { s with
      i := s.i + byteWord (s.getV x)
      v := (s.setVF (indexFlag (s.i + byteWord (s.getV x)))).v }
  | .drw x y n =>
    { s with
      fb := (s.drawSprite x y (s.bytesAt s.indexAddr n.toNat)).1
      v := (s.setVF (s.drawSprite x y (s.bytesAt s.indexAddr n.toNat)).2).v
      redraw := true }
  | .ldB x => { s with mem := memSetBytes s.font s.mem s.indexAddr (bcdDigits (s.getV x)) }
  | .store x =>
    { s with
      mem := memSetBytes s.font s.mem s.indexAddr (s.getVs (blockCount x))
      i := s.indexAfterBlock x }
  | .load x => { s with v := (s.setVs 0 (s.bytesAt s.indexAddr (blockCount x))).v, i := s.indexAfterBlock x }

/-- The state an instruction leaves: its fault raised, or its effect (R315). -/
def Instr.result (i : Instr) (s : State) : State := (i.faultIn s).elim (i.effect s) s.enterFaulted

section
variable {i : Instr} {s t : State} {r : FaultRecord}

theorem result_of_fault (h : i.faultIn s = some r) : i.result s = s.enterFaulted r := by rw [Instr.result, h]; rfl

theorem result_of_pass (h : i.faultIn s = none) : i.result s = i.effect s := by rw [Instr.result, h]; rfl

theorem exec_of_fault (h : i.faultIn s = some r) (e : exec i s = raiseFault r s) : exec i s = .next (i.result s) := by
  rw [e, result_of_fault h, raiseFault]

theorem exec_of_pass (h : i.faultIn s = none) (e : exec i s = .next (i.effect s)) :
    exec i s = .next (i.result s) := by
  rw [e, result_of_pass h]

end

/-- A push below the full stack, as the effect of CALL writes it. -/
theorem push_eq {s : State} (h : s.sp.val < 16) (a : Addr) :
    { s with
      pc := addrWord a
      stack := s.stack.set s.sp.val s.pc h
      sp := ⟨s.sp.val + 1, Nat.succ_lt_succ h⟩ } = (Instr.call a).effect s := by
  have stack : s.stack.set s.sp.val s.pc h = s.stack.setIfInBounds s.sp.val s.pc :=
    Vector.ext fun j hj => by rw [Vector.getElem_set, Vector.getElem_setIfInBounds]
  have sp : (⟨s.sp.val + 1, Nat.succ_lt_succ h⟩ : Fin 17) = Fin.ofNat 17 (s.sp.val + 1) :=
    Fin.ext (Nat.mod_eq_of_lt (Nat.succ_lt_succ h)).symm
  rw [stack, sp, Instr.effect]

/-- The execute phase is total, and every instruction does what its check and its effect say. -/
theorem exec_eq (i : Instr) (s : State) : exec i s = .next (i.result s) := by
  cases i
  case ret u =>
    rcases execRet_cases s u with ⟨h, e⟩ | ⟨h, e⟩
    · exact exec_of_pass (if_neg (Nat.ne_of_gt h)) e
    · exact exec_of_fault (if_pos h) e
  case call a =>
    rcases execCall_cases s a with ⟨h, e⟩ | ⟨h, e⟩
    · exact exec_of_pass (if_neg (Nat.ne_of_lt h)) (by rw [e, push_eq])
    · exact exec_of_fault (if_pos h) e
  case skp x =>
    rcases execSkp_cases s x with ⟨h, e⟩ | ⟨h, e⟩
    · exact exec_of_pass (if_neg (Nat.not_lt.mpr h)) (by rw [e, State.skipIf_eq]; rfl)
    · exact exec_of_fault (if_pos h) e
  case sknp x =>
    rcases execSknp_cases s x with ⟨h, e⟩ | ⟨h, e⟩
    · exact exec_of_pass (if_neg (Nat.not_lt.mpr h)) (by rw [e, State.skipIf_eq]; rfl)
    · exact exec_of_fault (if_pos h) e
  case drw x y n =>
    rcases execDrw_cases s x y n with ⟨h, e⟩ | ⟨h0, h, e⟩
    · exact exec_of_pass (pastTheEnd_inside s h) e
    · exact exec_of_fault (pastTheEnd_outside s h0 h) e
  case ldB x =>
    rcases execLdB_cases s x with ⟨h, e⟩ | ⟨h, e⟩
    · exact exec_of_pass (pastTheEnd_inside s (.inr h)) e
    · exact exec_of_fault (pastTheEnd_outside s (by decide) h) e
  case store x =>
    rcases execStore_cases s x with ⟨h, e⟩ | ⟨h, e⟩
    · exact exec_of_pass (pastTheEnd_inside s (.inr h)) e
    · exact exec_of_fault (pastTheEnd_outside s (Nat.succ_pos _) h) e
  case load x =>
    rcases execLoad_cases s x with ⟨h, e⟩ | ⟨h, e⟩
    · exact exec_of_pass (pastTheEnd_inside s (.inr h)) (by rw [e, State.setVs_eq]; rfl)
    · exact exec_of_fault (pastTheEnd_outside s (Nat.succ_pos _) h) e
  case ldVxK x =>
    refine exec_of_pass rfl ?_
    rw [Instr.effect]
    cases h : firstKey s.keys
    · exact exec_ldVxK_of_none h x
    · exact exec_ldVxK_of_some h x
  case sys a => rfl
  case orReg | andReg | xorReg => exact exec_of_pass rfl (congrArg _ (State.vfResetQuirk_eq _))
  case seImm | sneImm | seReg | sneReg => exact exec_of_pass rfl (congrArg _ (State.skipIf_eq ..))
  all_goals exact exec_of_pass rfl rfl

section
variable {i : Instr} {s t : State} {r : FaultRecord}

theorem exec_pass (h : i.faultIn s = none) : exec i s = .next (i.effect s) := by rw [exec_eq, result_of_pass h]

theorem exec_fault (h : i.faultIn s = some r) : exec i s = .next (s.enterFaulted r) := by
  rw [exec_eq, result_of_fault h]

/-- An access at I past 0xFFF leaves the state R312 and R315 give. -/
theorem exec_pastTheEnd {op : Word} {n : Nat} (check : i.faultIn s = pastTheEnd op s n) (hn : 0 < n)
    (past : 0x1000 < s.i.toNat + n) : exec i s = .next (s.afterBadAccess op) :=
  exec_fault (check.trans (if_pos ⟨hn, past⟩))

/-- Everything the execute phase can do. -/
theorem exec_cases (h : exec i s = .next t) :
    (∃ r, i.faultIn s = some r ∧ t = s.enterFaulted r) ∨ (i.faultIn s = none ∧ t = i.effect s) := by
  obtain rfl : i.result s = t := by
    rw [exec_eq] at h
    injection h
  cases hf : i.faultIn s
  case none => exact .inr ⟨rfl, result_of_pass hf⟩
  case some r => exact .inl ⟨r, rfl, result_of_fault hf⟩

end

/-! ### The frame of every instruction -/

section
variable (i : Instr) (s : State)

theorem effect_font : (i.effect s).font = s.font := by cases i <;> rfl

theorem effect_quirks : (i.effect s).quirks = s.quirks := by cases i <;> rfl

theorem effect_keys : (i.effect s).keys = s.keys := by cases i <;> rfl

theorem effect_inputs : (i.effect s).inputs = s.inputs := by cases i <;> rfl

theorem effect_status : (i.effect s).status = s.status := by cases i <;> rfl

theorem effect_fault : (i.effect s).fault = s.fault := by cases i <;> rfl

variable {i}

theorem effect_stack (h : ∀ a, i ≠ .call a) : (i.effect s).stack = s.stack := by
  cases i
  case call a => exact absurd rfl (h a)
  all_goals rfl

theorem effect_sp (hc : ∀ a, i ≠ .call a) (hr : ∀ u, i ≠ .ret u) : (i.effect s).sp = s.sp := by
  cases i
  case call a => exact absurd rfl (hc a)
  case ret u => exact absurd rfl (hr u)
  all_goals rfl

theorem effect_dt (h : ∀ x, i ≠ .ldDtVx x) : (i.effect s).dt = s.dt := by
  cases i
  case ldDtVx x => exact absurd rfl (h x)
  all_goals rfl

theorem effect_st (h : ∀ x, i ≠ .ldStVx x) : (i.effect s).st = s.st := by
  cases i
  case ldStVx x => exact absurd rfl (h x)
  all_goals rfl

theorem effect_fb (hc : ∀ u, i ≠ .cls u) (hd : ∀ x y n, i ≠ .drw x y n) : (i.effect s).fb = s.fb := by
  cases i
  case cls u => exact absurd rfl (hc u)
  case drw x y n => exact absurd rfl (hd x y n)
  all_goals rfl

theorem effect_redraw (h : ∀ x y n, i ≠ .drw x y n) : (i.effect s).redraw = s.redraw := by
  cases i
  case drw x y n => exact absurd rfl (h x y n)
  all_goals rfl

theorem effect_i (h : ¬ i.writesIndex s.quirks) : (i.effect s).i = s.i := by
  cases i
  case store | load => exact if_neg h
  case ldI | addI | ldF => exact absurd trivial h
  all_goals rfl

/-- A write of V[x] and then VF leaves every other register (R160). -/
theorem getV_flagRegs_other {x r : Reg} (h : ¬ (r = x ∨ r = vf)) (b : Byte) (flag : Bool) :
    ({ s with v := flagRegs s x b flag } : State).getV r = s.getV r := by
  obtain ⟨hx, hf⟩ := not_or.mp h
  exact (State.getV_setVThenFlag s x r b flag).trans (by rw [if_neg hf, if_neg hx])

theorem getV_vfResetQuirk_other {x r : Reg} (h : ¬ (r = x ∨ (s.quirks.vfReset = true ∧ r = vf))) (b : Byte) :
    ({ s with v := (s.setV x b).vfResetQuirk.v } : State).getV r = s.getV r := by
  obtain ⟨hx, hf⟩ := not_or.mp h
  refine (State.getV_vfResetQuirk (s.setV x b) r).trans ?_
  rw [State.setV_quirks, if_neg hf, State.getV_setV_other s hx]

theorem effect_getV {r : Reg} (h : ¬ i.writesReg s.quirks r) : (i.effect s).getV r = s.getV r := by
  cases i
  case ldImm | addImm | ldReg | rnd | ldVxDt | addI | drw => exact State.getV_setV_other s h _
  case orReg | andReg | xorReg => exact getV_vfResetQuirk_other s h _
  case addReg | subReg | subnReg | shr | shl => exact getV_flagRegs_other s h _ _
  case ldVxK x =>
    rw [Instr.effect]
    cases firstKey s.keys
    · rfl
    · exact State.getV_setV_other s h _
  case load x =>
    refine (State.getV_setVs s 0 _ ?_ r).trans (dif_neg ?_)
    · rw [State.bytesAt_length, blockCount]; omega
    · rw [State.bytesAt_length, blockCount]
      exact fun hr => h (Nat.le_of_lt_succ (by omega))
  all_goals rfl

variable (i)

theorem effect_bytes : SameBytesBut s (i.effect s) s.indexAddr i.storeCount := by
  cases i
  case ldB x => exact fun _ h => memByte_memSetBytes_other h
  case store x => exact fun _ h => memByte_memSetBytes_other (by rwa [State.getVs_length])
  all_goals exact fun _ _ => rfl

end

/-- Settles O13: the check decides between the fault raised and the effect, which lists neither STATUS nor FAULT. -/
theorem instructionsFaultExactlyWhenTheirCheckFails : Obligations.InstructionsFaultExactlyWhenTheirCheckFails :=
  fun i s => ⟨fun _ fails => exec_fault fails,
    fun passes => ⟨i.effect s, exec_pass passes, effect_status i s, effect_fault i s⟩⟩

/-- Settles O22: a fault changes no register, and an effect only those listed. -/
theorem registersChangeOnlyAsListed : Obligations.RegistersChangeOnlyAsListed := by
  intro i s t h r hr
  obtain ⟨f, -, rfl⟩ | ⟨-, rfl⟩ := exec_cases h
  · rfl
  · exact effect_getV s hr

/-- Settles O23: a fault leaves I, and so does every effect not listed. -/
theorem indexChangesOnlyAsListed : Obligations.IndexChangesOnlyAsListed := by
  intro i s t h hi
  obtain ⟨f, -, rfl⟩ | ⟨-, rfl⟩ := exec_cases h
  · rfl
  · exact effect_i s hi

/-- Settles O24: a fault stores nothing, and an effect stores its bytes at I. -/
theorem memoryChangesOnlyWhereStored : Obligations.MemoryChangesOnlyWhereStored := by
  intro i s t h
  obtain ⟨f, -, rfl⟩ | ⟨-, rfl⟩ := exec_cases h
  · exact fun _ _ => rfl
  · exact effect_bytes i s

/-- Settles O26: a fault changes none of these, and an effect only those of its own instruction. -/
theorem stackKeysAndTimersChangeOnlyAsListed : Obligations.StackKeysAndTimersChangeOnlyAsListed := by
  intro i s t h
  obtain ⟨f, -, rfl⟩ | ⟨-, rfl⟩ := exec_cases h
  · exact ⟨fun _ => rfl, fun _ _ => rfl, rfl, fun _ => rfl, fun _ => rfl⟩
  · exact ⟨effect_stack s, effect_sp s, effect_keys i s, effect_dt s, effect_st s⟩

end Sys2Proof
end

section
/-!
PROOFS. The step (spec/40_step_cycle.md).  A step from RUNNING has three endings: a fetch past the end, an instruction
run from `atExecute`, or a word that is no instruction.  Each is one equation; what every step keeps follows from the
three.
-/

namespace Sys2Proof.Machine

variable {s t : State} {i : Instr}

/-! ### The three endings of a step -/

/-- The record of a fetch that reaches past 0xFFF (R144). -/
def State.fetchRecord (s : State) : FaultRecord :=
  .addressOutOfBounds none s.pc (if s.pc.toNat < 0x1000 then 0x1000 else s.pc)

theorem raiseFetchFault_beginStep (s : State) :
    raiseFetchFault s.beginStep = .next { s.atExecute with
      pc := s.pc, status := .faulted, fault := some s.fetchRecord } := by
  rw [raiseFetchFault, State.beginStep_pc, firstBadAddr_toNat, State.beginStep_eq]
  rfl

theorem fetchWord_pastTheEnd (h : 0xFFE < s.pc.toNat) : s.fetchWord = none := by
  rw [State.fetchWord, show Config.insnBytes.toNat = 2 from rfl,
    State.memRead_outside (by decide) (show 4096 < s.pc.toNat + 2 by omega)]

theorem fetchWord_inside (h : s.pc.toNat ≤ 0xFFE) : s.fetchWord = some s.wordAtPc := by
  rw [State.fetchWord, show Config.insnBytes.toNat = 2 from rfl,
    State.memRead_inside (.inr (show s.pc.toNat + 2 ≤ 4096 by omega))]
  rfl

/-- A step whose fetch reaches past 0xFFF faults before PC moves. -/
theorem step_of_pastTheEnd (running : s.status = .running) (h : 0xFFE < s.pc.toNat) :
    step s = .next { s.atExecute with pc := s.pc, status := .faulted, fault := some s.fetchRecord } := by
  have fetched : s.beginStep.fetchWord = none := fetchWord_pastTheEnd h
  rw [step, running, ← raiseFetchFault_beginStep]
  simp only [fetched]

/-- A step that fetches an instruction runs it. -/
theorem step_of_fetchesInstr (h : s.fetchesInstr i) : step s = .next (i.result s.atExecute) := by
  obtain ⟨⟨running, inside⟩, word⟩ := h
  have fetched : s.beginStep.fetchWord = some s.wordAtPc := fetchWord_inside inside
  rw [step, running, ← exec_eq, ← State.atExecute_eq]
  simp only [fetched, word]

/-- A word that is no instruction is INVALID, and faults with its own bits and pc0. -/
theorem step_of_error {r : Reject} (hf : s.fetches) (hc : classify s.wordAtPc = .error r) :
    step s = .next (s.atExecute.enterFaulted (.invalidInstruction s.wordAtPc s.pc)) := by
  obtain ⟨-, rfl⟩ := classify_eq_error.mp hc
  have fetched : s.beginStep.fetchWord = some s.wordAtPc := fetchWord_inside hf.2
  rw [step, hf.1, ← State.pc0_atExecute, ← State.atExecute_eq]
  simp only [fetched, hc]
  rfl

/-- Everything a step that answers a next state did. -/
theorem step_next_cases (h : step s = .next t) :
    (0xFFE < s.pc.toNat ∧
        t = { s.atExecute with pc := s.pc, status := .faulted, fault := some s.fetchRecord }) ∨
      (∃ i, s.fetchesInstr i ∧ t = i.result s.atExecute) ∨
      (s.fetches ∧ (∀ i, ¬ s.fetchesInstr i) ∧
        t = s.atExecute.enterFaulted (.invalidInstruction s.wordAtPc s.pc)) := by
  rcases step_cases (running_of_step h) with ⟨past, -⟩ | ⟨i, hi, -⟩ | ⟨r, hf, hc, -⟩
  · rw [step_of_pastTheEnd (running_of_step h) past] at h
    injection h with h
    exact .inl ⟨past, h.symm⟩
  · rw [step_of_fetchesInstr hi] at h
    injection h with h
    exact .inr (.inl ⟨i, hi, h.symm⟩)
  · rw [step_of_error hf hc] at h
    injection h with h
    refine .inr (.inr ⟨hf, fun i hi => ?_, h.symm⟩)
    cases hi.2.symm.trans hc

/-- Settles O7: it is the second ending, `atExecute` written out. -/
theorem stepRunsTheDecodedInstruction : Obligations.StepRunsTheDecodedInstruction := by
  intro s i running inside word
  rw [step_of_fetchesInstr ⟨⟨running, inside⟩, word⟩, ← exec_eq]
  rfl

/-- Settles O9: it is the first ending. -/
theorem fetchPastTheEndFaults : Obligations.FetchPastTheEndFaults := fun _ => step_of_pastTheEnd

/-- Settles O10: an invalid word is the third ending; a SYS word is the second, and its instruction always raises the
same fault. -/
theorem invalidAndSysWordsFault : Obligations.InvalidAndSysWordsFault := by
  rintro s fetches (invalid | ⟨a, sys⟩)
  · exact step_of_error fetches invalid
  · rw [step_of_fetchesInstr ⟨fetches, sys⟩, result_of_fault rfl, (encode_of_dispatch (classify_eq_ok.mp sys)).2,
      show s.atExecute.pc - 2 = s.pc from State.pc0_atExecute s]
    rfl

/-- Settles O11: the step looks at STATUS first. -/
theorem engineIsStuckUnlessRunning : Obligations.EngineIsStuckUnlessRunning := by
  refine fun s => ⟨fun h => ?_, fun h => ?_⟩
  · rw [step, h]
  · rw [step, h]

/-- Settles O12: each of the three endings is a next state, and the execute phase is total. -/
theorem everyRunningStepAnswersANextState : Obligations.EveryRunningStepAnswersANextState := by
  refine ⟨fun s running => ?_, fun i s => ⟨_, exec_eq i s⟩⟩
  rcases step_cases running with ⟨past, -⟩ | ⟨i, hi, -⟩ | ⟨r, hf, hc, -⟩
  · exact ⟨_, step_of_pastTheEnd running past⟩
  · exact ⟨_, step_of_fetchesInstr hi⟩
  · exact ⟨_, step_of_error hf hc⟩

/-! ### What every step keeps -/

/-- An instruction ends in its fault raised or in its effect. -/
theorem result_cases (i : Instr) (s : State) :
    (∃ r, i.faultIn s = some r ∧ i.result s = s.enterFaulted r) ∨
      (i.faultIn s = none ∧ i.result s = i.effect s) := exec_cases (exec_eq i s)

/-- A field ends as `a` after a step, where it does in a fault and in the effect of the instruction fetched. -/
theorem step_field {α : Type} {f : State → α} {a : α} (h : step s = .next t)
    (past : ∀ r, f { s.atExecute with pc := s.pc, status := .faulted, fault := some r } = a)
    (fault : ∀ r, f (s.atExecute.enterFaulted r) = a)
    (effect : ∀ i, s.fetchesInstr i → f (i.effect s.atExecute) = a) : f t = a := by
  rcases step_next_cases h with ⟨-, rfl⟩ | ⟨i, hi, rfl⟩ | ⟨-, -, rfl⟩
  · exact past _
  · rcases result_cases i s.atExecute with ⟨r, -, e⟩ | ⟨-, e⟩ <;> rw [e]
    · exact fault r
    · exact effect i hi
  · exact fault _

/-- Settles O16: no ending of a step and no host transaction writes either parameter. -/
theorem constructionParametersNeverChange : Obligations.ConstructionParametersNeverChange := by
  rintro s t (h | ⟨bytes, reply, h⟩ | rfl | ⟨input, rfl⟩)
  · exact ⟨step_field h (fun _ => rfl) (fun _ => rfl) fun i _ => effect_quirks i s.atExecute,
      step_field h (fun _ => rfl) (fun _ => rfl) fun i _ => effect_font i s.atExecute⟩
  · rw [loadProgram] at h
    split at h
    · split at h <;> cases h <;> exact ⟨rfl, rfl⟩
    · cases h
  · exact ⟨rfl, rfl⟩
  · exact ⟨rfl, rfl⟩

/-- Settles O25: FB and REDRAW are in the effects of CLS and DRW alone, and DRW's REDRAW is 1. -/
theorem screenAndRedrawChangeOnlyAsListed : Obligations.ScreenAndRedrawChangeOnlyAsListed := by
  intro s t h
  refine ⟨fun cls drw => ?_, fun drw => ?_, fun requested => ?_, rfl⟩
  · exact step_field h (fun _ => rfl) (fun _ => rfl) fun i hi =>
      effect_fb s.atExecute (fun u e => cls u (e ▸ hi)) fun x y n e => drw x y n (e ▸ hi)
  · exact step_field h (fun _ => rfl) (fun _ => rfl) fun i hi =>
      effect_redraw s.atExecute fun x y n e => drw x y n (e ▸ hi)
  · refine step_field h (fun _ => requested) (fun _ => requested) fun i _ => ?_
    cases i
    case drw => rfl
    all_goals exact requested

/-- A timer counted down (R142), as a number. -/
theorem countedTimer_toNat (t : Byte) : (BitVec.ofNat 8 (t.toNat - 1)).toNat = t.toNat - 1 := by
  have := t.isLt
  rw [BitVec.toNat_ofNat, Nat.mod_eq_of_lt (by omega)]

/-- An instruction without a check leaves its effect. -/
theorem step_of_pass (h : step s = .next t) (hi : s.fetchesInstr i) (pass : i.faultIn s.atExecute = none) :
    t = i.effect s.atExecute := by
  rw [step_of_fetchesInstr hi, result_of_pass pass] at h
  injection h with h
  exact h.symm

/-- Settles O8: every ending of a step keeps the KEYS and the timers of `atExecute`, except the two effects that write
a timer. -/
theorem everyStepLatchesKeysAndCountsTimers : Obligations.EveryStepLatchesKeysAndCountsTimers := by
  intro s t h
  have keys : t.keys = s.nextInput.keys :=
    step_field h (fun _ => rfl) (fun _ => rfl) fun i _ => effect_keys i s.atExecute
  have inputs : t.inputs = s.inputs.tail :=
    step_field h (fun _ => rfl) (fun _ => rfl) fun i _ => effect_inputs i s.atExecute
  refine ⟨keys, fun input rest hs => ⟨?_, ?_⟩, fun other => ?_, fun other => ?_, fun x hi => ?_, fun x hi => ?_,
    fun x hi => ?_, fun i hi => ?_⟩
  · rw [keys, State.nextInput, hs]
  · rw [inputs, hs, List.tail_cons]
  · rw [← countedTimer_toNat]
    refine congrArg _ (step_field h (fun _ => rfl) (fun _ => rfl) fun i hi => ?_)
    exact effect_dt s.atExecute fun x e => other x (e ▸ hi)
  · rw [← countedTimer_toNat]
    refine congrArg _ (step_field h (fun _ => rfl) (fun _ => rfl) fun i hi => ?_)
    exact effect_st s.atExecute fun x e => other x (e ▸ hi)
  · rw [step_of_pass h hi rfl]; rfl
  · rw [step_of_pass h hi rfl]; rfl
  · rw [step_of_pass h hi rfl, ← countedTimer_toNat]
    exact congrArg _ (State.getV_setV_self s.atExecute x _)
  · rw [exec_eq, ← step_of_fetchesInstr hi, h]

/-! ### PC -/

theorem effect_pc_advance (s : State) (h : i.pcRole = .advance) : (i.effect s).pc = s.pc := by
  cases i
  case ret | jp | call | jpV0 | seImm | sneImm | seReg | sneReg | skp | sknp | ldVxK => cases h
  all_goals rfl

theorem skipPc_cases (s : State) (c : Bool) : skipPc s c = s.pc ∨ skipPc s c = s.pc + 2 := by
  cases c
  · exact .inl rfl
  · exact .inr rfl

theorem effect_pc_skip (s : State) (h : i.pcRole = .skip) :
    (i.effect s).pc = s.pc ∨ (i.effect s).pc = s.pc + 2 := by
  cases i
  case seImm | sneImm | seReg | sneReg | skp | sknp => exact skipPc_cases s _
  all_goals cases h

theorem effect_pc_wait (s : State) (h : i.pcRole = .wait) :
    (i.effect s).pc = s.pc ∨ (i.effect s).pc = s.pc - 2 := by
  cases i
  case ldVxK x =>
    rw [Instr.effect]
    cases firstKey s.keys
    · exact .inr rfl
    · exact .inl rfl
  all_goals cases h

theorem effect_pc_overwrite (h : i.pcRole = .overwrite) (pass : i.faultIn s = none) :
    (∃ a, (i = .jp a ∨ i = .call a) ∧ (i.effect s).pc = a.setWidth 16) ∨
      (∃ a, i = .jpV0 a ∧ (i.effect s).pc = a.setWidth 16 + (s.getV (s.jumpReg a)).setWidth 16) ∨
      ∃ u k, i = .ret u ∧ s.sp.val = k.val + 1 ∧ (i.effect s).pc = s.slot k := by
  cases i
  case jp a => exact .inl ⟨a, .inl rfl, rfl⟩
  case call a => exact .inl ⟨a, .inr rfl, rfl⟩
  case jpV0 a => exact .inr (.inl ⟨a, rfl, rfl⟩)
  case ret u =>
    have sp : s.sp.val ≠ 0 := fun sp => by rw [Instr.faultIn, if_pos sp] at pass; cases pass
    exact .inr (.inr ⟨u, topSlot s, rfl, (Nat.succ_pred sp).symm, rfl⟩)
  all_goals cases h

/-- Settles O27, by the PC role of the instruction fetched; a fault leaves the advanced PC. -/
theorem pcMovesByTwoUnlessOverwritten : Obligations.PcMovesByTwoUnlessOverwritten := by
  intro s t fetches h
  rcases step_next_cases h with ⟨past, -⟩ | ⟨i, hi, rfl⟩ | ⟨-, unfetched, rfl⟩
  · exact absurd fetches.2 (Nat.not_le.mpr past)
  · refine ⟨fun unfetched => absurd hi (unfetched i), fun j hj => ?_⟩
    obtain rfl := State.fetchesInstr_unique hi hj
    rcases result_cases i s.atExecute with ⟨r, -, e⟩ | ⟨pass, e⟩ <;> rw [e]
    · exact ⟨fun _ => rfl, fun _ => .inl rfl, fun _ => .inl rfl, fun _ _ => rfl, fun _ running => nomatch running⟩
    · exact ⟨effect_pc_advance _, effect_pc_skip _, effect_pc_wait _,
        fun _ stopped => absurd ((effect_status i s.atExecute).trans fetches.1) stopped,
        fun role _ => effect_pc_overwrite role pass⟩
  · exact ⟨fun _ => rfl, fun i hi => absurd hi (unfetched i)⟩

/-! ### The invariant -/

theorem pastTheEnd_eq_none {op : Word} {n : Nat} (h : pastTheEnd op s n = none) :
    n = 0 ∨ s.indexAddr + n ≤ 4096 := by
  rw [pastTheEnd] at h
  split at h
  · cases h
  · rw [State.indexAddr]; omega

/-- The first address out of bounds of a range past the end is above 0xFFF (R312). -/
theorem addressOutOfBounds_possible (op : Option Word) (pc a : Word) :
    (FaultRecord.addressOutOfBounds op pc (if a.toNat < 0x1000 then 0x1000 else a)).possible := by
  rw [FaultRecord.possible]
  split
  · exact Nat.le_refl _
  · exact Nat.le_of_not_lt ‹_›

/-- The record a failed check leaves is one its cause can leave, and not that of a load (R310). -/
theorem pastTheEnd_possible {op : Word} {n : Nat} {r : FaultRecord} (h : pastTheEnd op s n = some r) :
    r.code ≠ 1 ∧ r.possible := by
  rw [pastTheEnd] at h
  split at h <;> cases h
  exact ⟨by simp [FaultRecord.code], addressOutOfBounds_possible ..⟩

theorem faultIn_possible {r : FaultRecord} (h : i.faultIn s = some r) : r.code ≠ 1 ∧ r.possible := by
  cases i
  case sys => cases h; simp [FaultRecord.code, FaultRecord.possible]
  case drw | ldB | store | load => exact pastTheEnd_possible h
  case ret | call =>
    rw [Instr.faultIn] at h
    split at h <;> cases h
    simp [FaultRecord.code, FaultRecord.possible]
  case skp | sknp =>
    rw [Instr.faultIn] at h
    split at h <;> cases h
    exact ⟨by simp [FaultRecord.code], ‹_›⟩
  all_goals cases h

/-- Raising a fault of a step keeps the invariant. -/
theorem Inv.enterFaulted (h : Inv s) {r : FaultRecord} (hr : r.code ≠ 1 ∧ r.possible) : Inv (s.enterFaulted r) :=
  ⟨h.memCanonical, h.pcBound, h.slotBound, hr⟩

/-- In the execute phase PC is an address just fetched from, plus 2. -/
theorem atExecute_pc_toNat (inside : s.pc.toNat ≤ 0xFFE) : s.atExecute.pc.toNat = s.pc.toNat + 2 := by
  rw [show s.atExecute.pc = s.pc + 2 from rfl, BitVec.toNat_add, show (2 : Word).toNat = 2 from rfl,
    Nat.mod_eq_of_lt (by omega)]

theorem Inv.atExecute (h : Inv s) (inside : s.pc.toNat ≤ 0xFFE) : Inv s.atExecute :=
  ⟨h.memCanonical, by rw [atExecute_pc_toNat inside]; omega, h.slotBound, h.statusRecord⟩

/-- Every store stays inside memory, so memory stays canonical (R75). -/
theorem effect_wf (h : Memory.wf s.font s.mem = true) (pass : i.faultIn s = none) :
    Memory.wf (i.effect s).font (i.effect s).mem = true := by
  cases i
  case ldB x =>
    exact memSetBytes_wf h ((pastTheEnd_eq_none pass).resolve_left (by decide))
  case store x =>
    refine memSetBytes_wf h ?_
    rw [State.getVs_length]
    exact (pastTheEnd_eq_none pass).resolve_left (Nat.succ_ne_zero _)
  all_goals exact h

theorem effect_slot_cases (i : Instr) (s : State) (k : Fin 16) :
    (i.effect s).slot k = s.slot k ∨ (i.effect s).slot k = s.pc := by
  cases i
  case call a =>
    rw [State.slot, Instr.effect, Vector.getElem_setIfInBounds]
    split
    · exact .inr rfl
    · exact .inl rfl
  all_goals exact .inl rfl

/-- Where PC can be after the execute phase that follows a fetch: a jump reaches 0xFFF + 0xFF at most (R207). -/
theorem effect_pc_le (h : Inv s) (low : 2 ≤ s.pc.toNat) (high : s.pc.toNat ≤ 0x1000) (pass : i.faultIn s = none) :
    (i.effect s).pc.toNat ≤ 0x10FE := by
  have two : (2 : Word).toNat = 2 := rfl
  cases role : i.pcRole with
  | advance => rw [effect_pc_advance s role]; omega
  | skip =>
    rcases effect_pc_skip s role with e | e <;> rw [e]
    · omega
    · rw [BitVec.toNat_add]; omega
  | wait =>
    rcases effect_pc_wait s role with e | e <;> rw [e]
    · omega
    · rw [BitVec.toNat_sub]; omega
  | overwrite =>
    rcases effect_pc_overwrite role pass with ⟨a, -, e⟩ | ⟨a, -, e⟩ | ⟨u, k, -, -, e⟩ <;> rw [e]
    · have := a.isLt
      rw [BitVec.toNat_setWidth]; omega
    · have := a.isLt
      have := (s.getV (s.jumpReg a)).isLt
      rw [BitVec.toNat_add, BitVec.toNat_setWidth, BitVec.toNat_setWidth]; omega
    · have := h.slotBound k
      omega

theorem Inv.effect (h : Inv s) (low : 2 ≤ s.pc.toNat) (high : s.pc.toNat ≤ 0x1000) (pass : i.faultIn s = none) :
    Inv (i.effect s) where
  memCanonical := effect_wf h.memCanonical pass
  pcBound := effect_pc_le h low high pass
  slotBound k := by
    rcases effect_slot_cases i s k with e | e <;> rw [e]
    · exact h.slotBound k
    · exact high
  statusRecord := by
    rw [effect_status, effect_fault]
    exact h.statusRecord

/-- Settles O14: each ending of a step keeps the invariant, since a fetch bounds the PC its instruction starts
from. -/
theorem everyStepKeepsTheInvariant : Obligations.EveryStepKeepsTheInvariant := by
  intro s t inv h
  rcases step_next_cases h with ⟨-, rfl⟩ | ⟨i, hi, rfl⟩ | ⟨fetches, -, rfl⟩
  · exact ⟨inv.memCanonical, inv.pcBound, inv.slotBound, by simp [FaultRecord.code, State.fetchRecord],
      addressOutOfBounds_possible ..⟩
  · have start := inv.atExecute hi.1.2
    have pc := atExecute_pc_toNat hi.1.2
    have inside := hi.1.2
    rcases result_cases i s.atExecute with ⟨r, fault, e⟩ | ⟨pass, e⟩ <;> rw [e]
    · exact start.enterFaulted (faultIn_possible fault)
    · exact start.effect (by omega) (by omega) pass
  · exact (inv.atExecute fetches.2).enterFaulted (by simp [FaultRecord.code, FaultRecord.possible])

/-! ### Two runs that differ in inputs or inert switches -/

/-- Any change of the random byte, KEYS and the two inert switches. -/
def State.tweak (s : State) (byte : Byte → Byte) (keys : BitVec 16 → BitVec 16) (clip wait : Bool → Bool) : State :=
  { s with
    rnd := byte s.rnd
    keys := keys s.keys
    quirks := { s.quirks with clipping := clip s.quirks.clipping, displayWait := wait s.quirks.displayWait } }

section
variable (s : State) (byte : Byte → Byte) (keys : BitVec 16 → BitVec 16) (clip wait : Bool → Bool)

theorem tweak_status : (s.tweak byte keys clip wait).status = s.status := rfl

theorem setVs_tweak_v (k : Nat) (bs : List Byte) :
    ((s.tweak byte keys clip wait).setVs k bs).v = (s.setVs k bs).v := by
  induction bs generalizing s k with
  | nil => rfl
  | cons b bs ih => exact ih (s.setV _ b) (k + 1)

theorem vfResetQuirk_tweak_v (x : Reg) (b : Byte) :
    ((s.tweak byte keys clip wait).setV x b).vfResetQuirk.v = (s.setV x b).vfResetQuirk.v := by
  cases q : s.quirks.vfReset
  · rw [State.vfResetQuirk_setV_off q, State.vfResetQuirk_setV_off (s := s.tweak byte keys clip wait) q]; rfl
  · rw [State.vfResetQuirk_setV_on q, State.vfResetQuirk_setV_on (s := s.tweak byte keys clip wait) q]; rfl

/-- No check reads any of them. -/
theorem faultIn_tweak (i : Instr) : i.faultIn (s.tweak byte keys clip wait) = i.faultIn s := by cases i <;> rfl

theorem effect_tweak (i : Instr) (hb : (∀ x k, i ≠ .rnd x k) ∨ byte = id)
    (hk : (∀ x, i ≠ .skp x ∧ i ≠ .sknp x ∧ i ≠ .ldVxK x) ∨ keys = id) :
    i.effect (s.tweak byte keys clip wait) = (i.effect s).tweak byte keys clip wait := by
  cases i
  case rnd x k =>
    obtain h | rfl := hb
    · exact absurd rfl (h x k)
    · rfl
  case skp x =>
    obtain h | rfl := hk
    · exact absurd rfl (h x).1
    · rfl
  case sknp x =>
    obtain h | rfl := hk
    · exact absurd rfl (h x).2.1
    · rfl
  case ldVxK x =>
    obtain h | rfl := hk
    · exact absurd rfl (h x).2.2
    · rfl
  case orReg | andReg | xorReg =>
    exact congrArg (fun v => ({ s with v := v } : State).tweak byte keys clip wait)
      (vfResetQuirk_tweak_v s byte keys clip wait _ _)
  case load x =>
    exact congrArg (fun v => ({ s with v := v, i := s.indexAfterBlock x } : State).tweak byte keys clip wait)
      (setVs_tweak_v s byte keys clip wait 0 _)
  all_goals rfl

theorem result_tweak (i : Instr) (hb : (∀ x k, i ≠ .rnd x k) ∨ byte = id)
    (hk : (∀ x, i ≠ .skp x ∧ i ≠ .sknp x ∧ i ≠ .ldVxK x) ∨ keys = id) :
    i.result (s.tweak byte keys clip wait) = (i.result s).tweak byte keys clip wait := by
  rw [Instr.result, Instr.result, faultIn_tweak, effect_tweak s byte keys clip wait i hb hk]
  cases i.faultIn s <;> rfl

end

/-- Settles O18: a tweak of an input that an instruction does not read comes out of its result unread. -/
theorem inputsReachOnlyTheirReaders : Obligations.InputsReachOnlyTheirReaders := by
  refine fun i s byte keys => ⟨fun hb => ?_, fun hk => ?_⟩ <;> rw [exec_eq, exec_eq]
  · exact congrArg Host.Outcome.next (result_tweak s (fun _ => byte) id id id i (.inl hb) (.inr rfl))
  · exact congrArg Host.Outcome.next (result_tweak s id (fun _ => keys) id id i (.inr rfl) (.inl hk))

/-- Each ending of a step commutes with a tweak of the two switches: no fetch and no instruction reads them. -/
theorem step_tweak (s : State) (clip wait : Bool → Bool) :
    step (s.tweak id id clip wait) = mapNext (fun t => t.tweak id id clip wait) (step s) := by
  cases status : s.status with
  | faulted => rw [step, step, tweak_status, status]; rfl
  | loadFailed => rw [step, step, tweak_status, status]; rfl
  | running =>
    rcases step_cases status with ⟨past, -⟩ | ⟨i, hi, -⟩ | ⟨r, hf, hc, -⟩
    · rw [step_of_pastTheEnd status past, step_of_pastTheEnd (s := s.tweak id id clip wait) status past]
      rfl
    · rw [step_of_fetchesInstr hi, step_of_fetchesInstr (s := s.tweak id id clip wait) hi]
      exact congrArg Host.Outcome.next (result_tweak s.atExecute id id clip wait i (.inr rfl) (.inr rfl))
    · rw [step_of_error hf hc, step_of_error (s := s.tweak id id clip wait) hf hc]
      rfl

/-- Settles O17: setting the two switches is a tweak. -/
theorem inertQuirksHaveNoEffect : Obligations.InertQuirksHaveNoEffect := fun s clip wait =>
  step_tweak s (fun _ => clip) fun _ => wait

/-! ### Parked engines -/

/-- A parked state fetches the JP to its own PC (R370). -/
theorem Parked.fetchesInstr (h : Parked s) : s.fetchesInstr (.jp (s.pc.extractLsb' 0 12)) := by
  refine ⟨h.1, ?_⟩
  rw [h.2]
  exact classify_encode (i := .jp _) rfl

/-- A fetchable PC fits the 12-bit address field. -/
theorem addrWord_pc (h : s.pc.toNat ≤ 0xFFE) : addrWord (s.pc.extractLsb' 0 12) = s.pc := by
  apply BitVec.eq_of_toNat_eq
  rw [addrWord, BitVec.toNat_setWidth, BitVec.extractLsb'_toNat, Nat.shiftRight_zero]
  omega

/-- One step of a parked engine counts the timers and takes its inputs, and the jump undoes the PC advance. -/
theorem step_parked (h : Parked s) : step s = .next { s.atExecute with pc := s.pc } := by
  rw [step_of_fetchesInstr h.fetchesInstr, result_of_pass rfl, Instr.effect, addrWord_pc h.1.2]

/-- Settles O19, by induction on the number of steps: after one step the engine is parked at the same PC. -/
theorem parkedEngineStaysParked : Obligations.ParkedEngineStaysParked := by
  intro s n h
  induction n generalizing s with
  | zero => exact ⟨s, rfl, h, rfl, rfl, rfl⟩
  | succ n ih =>
    have parked : Parked { s.atExecute with pc := s.pc } := h
    obtain ⟨t, run, ht, dt, st, rest⟩ := ih _ parked
    refine ⟨t, (run_succ n (M := core) (step_parked h)).trans run, ht, ?_, ?_, rest⟩
    · rw [dt, show ({ s.atExecute with pc := s.pc } : State).dt = BitVec.ofNat 8 (s.dt.toNat - 1) from rfl,
        countedTimer_toNat, Nat.sub_sub, Nat.add_comm]
    · rw [st, show ({ s.atExecute with pc := s.pc } : State).st = BitVec.ofNat 8 (s.st.toNat - 1) from rfl,
        countedTimer_toNat, Nat.sub_sub, Nat.add_comm]

end Sys2Proof.Machine
end

section
/-!
PROOFS. The instructions one by one: register loads, SUB and SUBN, the shifts (spec/41_alu.md), control transfer and
the stack (spec/42_control_flow.md), the index register (spec/43_index_memory.md section 1).
-/

namespace Sys2Proof.Machine

/-! ### Register loads, arithmetic and logic -/

/-- Settles O28: each is `setV` of V[x]. -/
theorem registerLoads : Obligations.RegisterLoads := fun s x y imm =>
  ⟨⟨_, rfl, onlyRegs_setV s x imm, State.getV_setV_self ..⟩,
    ⟨_, rfl, onlyRegs_setV s x (s.getV y), State.getV_setV_self ..⟩⟩

/-- A byte difference, as a number. -/
theorem toNat_sub_emod (a b : Byte) : ((a - b).toNat : Int) = (a.toNat - b.toNat : Int) % 256 := by
  have := a.isLt
  have := b.isLt
  rw [BitVec.toNat_sub]
  omega

/-- A subtraction leaves the difference in V[x] and, last, its flag in VF (R160). -/
theorem setVThenFlag_noBorrow (s : State) (x : Reg) (a b : Byte) :
    OnlyRegs s (s.setVThenFlag x (a - b) (noBorrow a b)) [x, 0xF] ∧
      (x ≠ 0xF → (((s.setVThenFlag x (a - b) (noBorrow a b)).getV x).toNat : Int) = (a.toNat - b.toNat : Int) % 256) ∧
      (s.setVThenFlag x (a - b) (noBorrow a b)).getV 0xF = if a.toNat > b.toNat then 1 else 0 := by
  refine ⟨onlyRegs_setVThenFlag .., fun hx => ?_, ?_⟩
  · rw [State.getV_setVThenFlag_dest hx, toNat_sub_emod]
  · rw [State.getV_setVThenFlag_vf, noBorrow, flagByte_decide]

/-- Settles O32: SUB and SUBN are one operation with its operands exchanged. -/
theorem subtractionsSetNoBorrow : Obligations.SubtractionsSetNoBorrow := fun s x y =>
  ⟨⟨_, rfl, setVThenFlag_noBorrow s x (s.getV x) (s.getV y)⟩,
    ⟨_, rfl, setVThenFlag_noBorrow s x (s.getV y) (s.getV x)⟩⟩

theorem flagByte_getLsbD (b : Byte) (k : Nat) : (flagByte (b.getLsbD k)).toNat = b.toNat / 2 ^ k % 2 := by
  rw [BitVec.getLsbD, Nat.testBit_eq_decide_div_mod_eq, flagByte_decide]
  split
  · next h => rw [h]; rfl
  · next h => rw [(Nat.mod_two_eq_zero_or_one _).resolve_right h]; rfl

/-- Settles O33: each leaves the shifted source in V[x] and, last, the bit shifted out in VF. -/
theorem shiftsTakeTheQuirksSource : Obligations.ShiftsTakeTheQuirksSource := by
  rintro s x y src rfl
  refine ⟨⟨_, rfl, onlyRegs_setVThenFlag .., fun hx => ?_, ?_⟩, ⟨_, rfl, onlyRegs_setVThenFlag .., fun hx => ?_, ?_⟩⟩
  · rw [State.getV_setVThenFlag_dest hx, BitVec.toNat_ushiftRight, Nat.shiftRight_one]; rfl
  · rw [State.getV_setVThenFlag_vf, lowBit, flagByte_getLsbD, pow_zero, Nat.div_one]; rfl
  · rw [State.getV_setVThenFlag_dest hx, BitVec.toNat_shiftLeft, Nat.shiftLeft_eq]; rfl
  · rw [State.getV_setVThenFlag_vf, highBit, flagByte_getLsbD,
      Nat.mod_eq_of_lt (Nat.div_lt_of_lt_mul (BitVec.isLt _))]
    rfl

/-! ### Control transfer -/

theorem addrWord_toNat (a : Addr) : (addrWord a).toNat = a.toNat := by
  have := a.isLt
  rw [addrWord, BitVec.toNat_setWidth, Nat.mod_eq_of_lt (by omega)]

/-- Settles O34: the pop reads the slot below SP, where there is one. -/
theorem returnPopsOrUnderflows : Obligations.ReturnPopsOrUnderflows := by
  refine fun s u => ⟨fun k sp => ?_, fun sp => exec_fault (if_pos sp)⟩
  obtain rfl : k = topSlot s := Fin.ext (Nat.pred_eq_of_eq_succ sp).symm
  exact ⟨_, exec_pass (if_neg (by omega)), rfl, rfl, fun _ _ => rfl, fun _ => rfl⟩

/-- SP after a push that fits (R38). -/
theorem effect_call_sp {s : State} (h : s.sp.val < 16) (a : Addr) :
    ((Instr.call a).effect s).sp.val = s.sp.val + 1 := Nat.mod_eq_of_lt (Nat.succ_lt_succ h)

theorem effect_call_slot_self {s : State} (h : s.sp.val < 16) (a : Addr) :
    ((Instr.call a).effect s).slot ⟨s.sp.val, h⟩ = s.pc := Vector.getElem_setIfInBounds_self h

/-- Settles O35: the push writes the slot at SP, where there is one. -/
theorem callPushesOrOverflows : Obligations.CallPushesOrOverflows := by
  refine fun s addr => ⟨fun k sp => ?_, fun sp => exec_fault (if_pos sp)⟩
  have h : s.sp.val < 16 := sp ▸ k.isLt
  obtain rfl : k = ⟨s.sp.val, h⟩ := Fin.ext sp.symm
  refine ⟨_, exec_pass (if_neg (Nat.ne_of_lt h)), rfl, addrWord_toNat addr, effect_call_slot_self h addr,
    fun j hj => ?_, effect_call_sp h addr, fun _ _ => rfl, fun _ => rfl⟩
  exact Vector.getElem_setIfInBounds_ne j.isLt fun same => hj (Fin.ext same.symm)

/-- Settles O20: the CALL leaves its return address in the slot its RET pops, and SP one above. -/
theorem callThenReturnRestoresPc : Obligations.CallThenReturnRestoresPc := by
  intro s addr u p h
  have sp := effect_call_sp h addr
  have pass : (Instr.ret u).faultIn { (Instr.call addr).effect s with pc := p } = none :=
    if_neg fun empty => Nat.succ_ne_zero _ (sp.symm.trans empty)
  have top : topSlot { (Instr.call addr).effect s with pc := p } = ⟨s.sp.val, h⟩ :=
    Fin.ext (Nat.pred_eq_of_eq_succ sp)
  refine ⟨_, exec_pass (if_neg (Nat.ne_of_lt h)), (exec_pass pass).trans ?_⟩
  rw [Instr.effect, top]
  exact congrArg (fun w => Host.Outcome.next { (Instr.call addr).effect s with pc := w, sp := s.sp })
    (effect_call_slot_self h addr)

/-- Settles O36: no check guards it. -/
theorem sysRaisesInvalidInstruction : Obligations.SysRaisesInvalidInstruction := fun _ _ => exec_fault rfl

/-- Settles O37: only PC is written. -/
theorem jumpSetsPc : Obligations.JumpSetsPc := fun _ a => ⟨_, rfl, onlyPc_of_pc rfl, addrWord_toNat a⟩

/-- The address field of an offset jump names its register by bits 11:8 (R207). -/
theorem jumpReg_eq {s : State} {a : Addr} {r : Reg}
    (h : r.toNat = if s.quirks.jumpUsesVx = true then a.toNat / 256 else 0) : s.jumpReg a = r := by
  have := a.isLt
  apply BitVec.eq_of_toNat_eq
  rw [h, State.jumpReg]
  split
  · rw [BitVec.extractLsb'_toNat, Nat.shiftRight_eq_div_pow]; omega
  · rfl

theorem byteWord_toNat (b : Byte) : (byteWord b).toNat = b.toNat := by
  have := b.isLt
  rw [byteWord, BitVec.toNat_setWidth, Nat.mod_eq_of_lt (by omega)]

/-- Settles O38: 0xFFF + 0xFF fits 16 bits, so the sum is exact. -/
theorem jumpWithOffsetAddsTheQuirksRegister : Obligations.JumpWithOffsetAddsTheQuirksRegister := by
  intro s addr r h
  refine ⟨_, rfl, onlyPc_of_pc rfl, ?_⟩
  have := addr.isLt
  have := (s.getV r).isLt
  rw [State.setPc_pc, jumpReg_eq h, BitVec.toNat_add, addrWord_toNat, byteWord_toNat, Nat.mod_eq_of_lt (by omega)]

/-! ### The index register -/

/-- Memory is untouched wherever only I and the register file were replaced. -/
theorem onlyIndexAndRegs_of {s t : State} {dst : List Reg} (rest : t = { s with v := t.v, i := t.i })
    (regs : SameRegsBut s t dst) : OnlyIndexAndRegs s t dst :=
  ⟨rest, regs, State.byteAt_congr (congrArg State.font rest :) (congrArg State.mem rest :)⟩

/-- Settles O40: only I is written. -/
theorem loadIndexSetsTheAddress : Obligations.LoadIndexSetsTheAddress := fun _ a =>
  ⟨_, rfl, onlyIndexAndRegs_of rfl fun _ _ => rfl, addrWord_toNat a⟩

/-- Settles O41: I is the wrapped sum, and VF compares it with the threshold. -/
theorem addIndexFlagsTheThreshold : Obligations.AddIndexFlagsTheThreshold := by
  refine fun s x => ⟨_, rfl, onlyIndexAndRegs_of rfl fun r hr => ?_, ?_, ?_⟩
  · exact State.getV_setV_other _ (List.ne_of_not_mem_cons hr) _
  · rw [State.setVF, State.setV_i, State.setI_i, BitVec.toNat_add, byteWord_toNat]
  · rw [State.setVF, vf_eq, State.getV_setV_self, indexFlag, flagByte_decide]
    rfl

/-- Settles O42: 5 * 0xFF fits 16 bits; glyph 0 is in no font's part of memory. -/
theorem fontAddressIsFiveTimesTheDigit : Obligations.FontAddressIsFiveTimesTheDigit := by
  refine ⟨fun s x => ⟨_, rfl, onlyIndexAndRegs_of rfl fun _ _ => rfl, ?_⟩, fun q font => rfl⟩
  have := (s.getV x).isLt
  rw [State.setI_i, BitVec.toNat_ofNat, Config.glyphBytes, Nat.mod_eq_of_lt (by omega)]

end Sys2Proof.Machine
end

section
/-!
PROOFS. Memory transfer (spec/43_index_memory.md) and the drawing of sprites (spec/44_display.md): the bytes stored
are read back, by a load or by a fetch; a sprite covers the pixels its rows cover.
-/

namespace Sys2Proof.Machine

variable {s : State}

/-! ### Memory transfer -/

/-- The index after a block transfer, as a number (R236, R237). -/
theorem indexAfterBlock_spec (s : State) (x : Reg) :
    (s.quirks.indexIncrement = true → (s.indexAfterBlock x).toNat = (s.i.toNat + x.toNat + 1) % 2 ^ 16) ∧
      (s.quirks.indexIncrement = false → s.indexAfterBlock x = s.i) := by
  refine ⟨fun on => ?_, fun off => ?_⟩ <;> rw [State.indexAfterBlock]
  · have := x.isLt
    rw [if_pos on, BitVec.toNat_add, BitVec.toNat_ofNat, blockCount]
    omega
  · rw [off, if_neg Bool.false_ne_true]

/-- Settles O43: the digits are the three bytes stored. -/
theorem bcdStoreWritesThreeDigits : Obligations.BcdStoreWritesThreeDigits := by
  refine fun s x wf => ⟨fun inside => ?_, fun past => exec_pastTheEnd rfl (by decide) (by omega)⟩
  have range : s.indexAddr + 3 ≤ 4096 := by rw [State.indexAddr]; omega
  have hx := (s.getV x).isLt
  have stored {k : Nat} (hk : k < 3) := memByte_memSetBytes (bs := bcdDigits (s.getV x)) wf range hk
  refine ⟨_, exec_pass (pastTheEnd_inside s (.inr range)), rfl, fun _ _ => rfl,
    fun a ha => memByte_memSetBytes_other ha, ?_, ?_, ?_⟩
  · exact (congrArg BitVec.toNat (stored (k := 0) (by decide))).trans (Nat.mod_eq_of_lt (by omega))
  · exact (congrArg BitVec.toNat (stored (k := 1) (by decide))).trans (Nat.mod_eq_of_lt (by omega))
  · exact (congrArg BitVec.toNat (stored (k := 2) (by decide))).trans (Nat.mod_eq_of_lt (by omega))

theorem blockRange {x : Reg} (inside : s.i.toNat + x.toNat ≤ 0xFFF) : s.indexAddr + blockCount x ≤ 4096 :=
  Nat.succ_le_succ inside

/-- The bytes LD [I],Vx stores are the registers' values (R236). -/
theorem byteAt_store {x : Reg} (wf : Memory.wf s.font s.mem = true) (inside : s.indexAddr + blockCount x ≤ 4096)
    {k : Nat} (hk : k ≤ x.toNat) :
    (s.setMem (memSetBytes s.font s.mem s.indexAddr (s.getVs (blockCount x)))).byteAt (s.indexAddr + k) =
      s.getV (BitVec.ofNat 4 k) := by
  have len : (s.getVs (blockCount x)).length = x.toNat + 1 := State.getVs_length ..
  refine (memByte_memSetBytes wf (by rw [len]; exact inside) (by rw [len]; omega)).trans ?_
  exact State.getVs_getElem ..

/-- Settles O44: the bytes stored are the registers' values. -/
theorem blockStoreCopiesRegisters : Obligations.BlockStoreCopiesRegisters := by
  refine fun s x wf => ⟨fun inside => ?_, fun past => exec_pastTheEnd rfl (Nat.succ_pos _) (by omega)⟩
  refine ⟨_, exec_pass (pastTheEnd_inside s (.inr (blockRange inside))), rfl, fun _ _ => rfl, fun a ha => ?_,
    fun r hr => ?_, indexAfterBlock_spec s x⟩
  · exact memByte_memSetBytes_other (by rwa [State.getVs_length])
  · refine (byteAt_store wf (blockRange inside) hr).trans ?_
    rw [BitVec.ofNat_toNat, BitVec.setWidth_eq]

/-- Settles O21: the fetch reads the two bytes stored. -/
theorem storedBytesAreFetched : Obligations.StoredBytesAreFetched := by
  intro s x p wf inside low high
  refine ⟨_, exec_pass (pastTheEnd_inside s (.inr (blockRange inside))), ?_⟩
  have hi := byteAt_store (k := p.toNat - s.i.toNat) wf (blockRange inside) (by omega)
  have lo := byteAt_store (k := p.toNat + 1 - s.i.toNat) wf (blockRange inside) (by omega)
  rw [State.indexAddr, Nat.add_sub_cancel' (by omega)] at hi lo
  rw [← hi, ← lo]
  exact fetchWord_inside (show p.toNat ≤ 0xFFE by omega)

/-- Settles O45: the bytes loaded go to V0..Vx, the first at I. -/
theorem blockLoadCopiesMemory : Obligations.BlockLoadCopiesMemory := by
  refine fun s x => ⟨fun inside => ?_, fun past => exec_pastTheEnd rfl (Nat.succ_pos _) (by omega)⟩
  have len : (s.bytesAt s.indexAddr (blockCount x)).length = x.toNat + 1 := State.bytesAt_length ..
  have loaded := s.getV_setVs 0 (s.bytesAt s.indexAddr (blockCount x)) (by rw [len]; omega)
  refine ⟨_, exec_pass (pastTheEnd_inside s (.inr (blockRange inside))), rfl, fun _ => rfl, fun r hr => ?_,
    fun r hr => (loaded r).trans (dif_neg (by omega)), indexAfterBlock_spec s x⟩
  refine (loaded r).trans ?_
  rw [dif_pos ⟨Nat.zero_le _, by omega⟩]
  exact State.bytesAt_getElem ..

/-! ### Drawing -/

/-- Settles O48: the check fails before any write. -/
theorem drawPastTheEndFaults : Obligations.DrawPastTheEndFaults := fun _ _ _ _ hn past =>
  exec_pastTheEnd rfl (Nat.pos_of_ne_zero fun h => hn (BitVec.eq_of_toNat_eq h)) past

/-- On the screen, the pixels a sprite covers are those its rows cover (R261). -/
theorem spriteCovers_iff {x y : Reg} {n px py : Nat} (hx : px < 64) (hy : py < 32) :
    s.spriteCovers x y n px py ↔
      rowsCover (s.getV x).toNat px py (s.getV y).toNat (s.bytesAt s.indexAddr n) = true := by
  rw [rowsCover_iff, Nat.mod_eq_of_lt hx, Nat.mod_eq_of_lt hy, State.spriteCovers]
  refine exists_congr fun r => exists_congr fun c => ⟨?_, ?_⟩
  · rintro ⟨hr, hc, ex, ey, bit⟩
    exact ⟨by rwa [State.bytesAt_length], hc, ex, ey, by rwa [State.bytesAt_getElem]⟩
  · rintro ⟨hr, hc, ex, ey, bit⟩
    rw [State.bytesAt_getElem] at bit
    exact ⟨by rwa [State.bytesAt_length] at hr, hc, ex, ey, bit⟩

/-- A pixel is covered where its screen pixel is (R263). -/
theorem rowsCover_mod (vx px py vy : Nat) (rows : List Byte) :
    rowsCover vx (px % 64) (py % 32) vy rows = rowsCover vx px py vy rows := by
  rw [Bool.eq_iff_iff, rowsCover_iff, rowsCover_iff, Nat.mod_mod, Nat.mod_mod]

/-- Settles O47: each pixel ends as itself XOR whether it is covered, and the collision is that a covered one was
set. -/
theorem drawXorsTheSpriteAndFlagsCollision : Obligations.DrawXorsTheSpriteAndFlagsCollision := by
  intro s x y n inside
  have short : (s.bytesAt s.indexAddr n.toNat).length ≤ 32 := by
    have := n.isLt
    rw [State.bytesAt_length]; omega
  obtain ⟨drawn, collides⟩ := drawRows_spec (s.getV x).toNat (s.getV y).toNat _ (s.fb, false) short
  refine ⟨_, exec_pass (pastTheEnd_inside s (inside.imp_left (congrArg BitVec.toNat))), rfl, fun r hr => ?_,
    fun _ => rfl, fun px py hx hy cov => ?_, fun px py hx hy cov => ?_, ?_, ?_⟩
  · exact State.getV_setV_other _ (List.ne_of_not_mem_cons hr) _
  · refine (drawn px py).trans ?_
    rw [(spriteCovers_iff hx hy).mp cov, Bool.xor_true]
  · refine (drawn px py).trans ?_
    rw [Bool.eq_false_iff.mpr (mt (spriteCovers_iff hx hy).mpr cov), Bool.xor_false]
  · rintro ⟨px, py, hx, hy, cov, lit⟩
    have hit := collides.mpr (.inr ⟨px, py, (spriteCovers_iff hx hy).mp cov, lit⟩)
    exact (State.getV_setV_self ..).trans (congrArg flagByte hit)
  · intro dark
    refine (State.getV_setV_self ..).trans (congrArg flagByte (Bool.eq_false_iff.mpr fun hit => ?_))
    obtain ⟨px, py, cov, lit⟩ := (collides.mp hit).resolve_left Bool.false_ne_true
    have hx := Nat.mod_lt px (y := 64) (by decide)
    have hy := Nat.mod_lt py (y := 32) (by decide)
    rw [← rowsCover_mod, ← spriteCovers_iff hx hy] at cov
    rw [← pixel_mod, dark _ _ hx hy cov] at lit
    cases lit

end Sys2Proof.Machine
end

section
/-!
PROOFS. Timers, keys and random numbers (spec/45_timers_keys_random.md), reset and the host's transactions
(spec/70_reset_and_hazards.md, spec/10_state.md section 14).
-/

namespace Sys2Proof.Machine

variable {s : State}

/-! ### Timers, keys and random numbers -/

/-- Settles O49: each is one write, of V[x] or of a timer. -/
theorem timerTransfers : Obligations.TimerTransfers := fun s x =>
  ⟨⟨_, rfl, onlyRegs_setV s x s.dt, State.getV_setV_self ..⟩, ⟨_, rfl, rfl, fun _ _ => rfl, fun _ => rfl⟩,
    ⟨_, rfl, rfl, fun _ _ => rfl, fun _ => rfl⟩⟩

/-- Settles O51: each is a skip on the key named, or its fault. -/
theorem keySkipsTestTheNamedKey : Obligations.KeySkipsTestTheNamedKey := by
  rintro s x k rfl
  refine ⟨fun named => ⟨⟨_, exec_pass (if_neg (Nat.not_lt.mpr named)), onlyPc_of_pc rfl, rfl⟩,
      ⟨_, exec_pass (if_neg (Nat.not_lt.mpr named)), onlyPc_of_pc rfl, ?_⟩⟩,
    fun unnamed => ⟨exec_fault (if_pos unnamed), exec_fault (if_pos unnamed)⟩⟩
  rw [Instr.effect]
  cases s.keyDown (s.getV x).toNat <;> rfl

/-- Settles O52: the byte masked is the one State holds, which a step takes from its input. -/
theorem randomIsTheInputByteMasked : Obligations.RandomIsTheInputByteMasked := by
  refine ⟨fun s x imm => ⟨_, rfl, onlyRegs_setV .., fun b _ => ?_⟩, fun s x imm input h => ?_⟩
  · rw [State.getV_setV_self, BitVec.getLsbD_and]
  · have fetched : ({ s with inputs := input :: s.inputs } : State).fetchesInstr (.rnd x imm) := h
    refine ⟨_, step_of_fetchesInstr fetched, ?_⟩
    rw [result_of_pass rfl]
    exact State.getV_setV_self ..

/-! ### Construction -/

/-- What an unlisted address reads as, with the spec's numbers (R52, R80). -/
theorem unlistedByte_eq (font : Font) (a : Nat) :
    unlistedByte font a =
      if a < 5 then Config.glyphZero.toList.getD a 0 else if a < 80 then font.toList.getD (a - 5) 0 else 0 := by
  rw [unlistedByte, if_neg (Nat.not_lt_zero a)]
  rfl

theorem unlistedByte_font (font : Font) {k : Nat} (h : k < 75) : unlistedByte font (5 + k) = font[k] := by
  rw [unlistedByte_eq, if_neg (by omega), if_pos (by omega), Nat.add_sub_cancel_left, List.getD_eq_getElem?_getD,
    Vector.getElem?_toList, Vector.getElem?_eq_getElem h, Option.getD_some]

theorem unlistedByte_of_ge (font : Font) {a : Nat} (h : 0x050 ≤ a) : unlistedByte font a = 0 := by
  rw [unlistedByte_eq, if_neg (by omega), if_neg (by omega)]

theorem construct_slot (q : Quirks) (font : Font) (k : Fin 16) : (State.construct q font).slot k = 0 :=
  Vector.getElem_replicate ..

theorem construct_getV (q : Quirks) (font : Font) (r : Reg) : (State.construct q font).getV r = 0 :=
  Vector.getElem_replicate ..

/-- Settles O53: memory lists nothing, so its bytes are those an unlisted address reads; the rest is written out. -/
theorem constructionValues : Obligations.ConstructionValues := by
  rintro q font s rfl
  exact ⟨rfl, fun k h => unlistedByte_font font h, fun a low _ => unlistedByte_of_ge font low,
    construct_getV q font, rfl, rfl, construct_slot q font, rfl, rfl, rfl, fun x y _ _ => pixel_clearedFb x y,
    fun k _ => BitVec.getLsbD_zero, rfl, rfl, rfl, rfl, rfl⟩

theorem inv_construct (q : Quirks) (font : Font) : Inv (State.construct q font) where
  memCanonical := rfl
  pcBound := show (0x200 : Word).toNat ≤ 0x10FE by decide
  slotBound k := by rw [construct_slot]; decide
  statusRecord := trivial

/-- Settles O15: reset is a construction. -/
theorem constructionMeetsTheInvariant : Obligations.ConstructionMeetsTheInvariant :=
  ⟨inv_construct _ _, inv_construct⟩

/-! ### The host's transactions -/

/-- An accepted load of at most 3584 bytes writes them from 0x200 on (R352). -/
theorem loadProgram_ok {bytes : List Byte} (h : s.loadAccepted = true) (len : bytes.length ≤ 3584) :
    loadProgram bytes s = .next (.ok, s.setMem (memSetBytes s.font s.mem 0x200 bytes)) := by
  rw [loadProgram, if_pos h, if_neg (Nat.not_lt.mpr len)]

theorem loadAccepted_iff : s.loadAccepted = true ↔ s.status = .running ∧ s.started = false := by
  simp [State.loadAccepted]

/-- Settles O54: an accepted load is a write of bytes at 0x200, which ends inside memory when it is not too long. -/
theorem loadProgramCopiesOrRejects : Obligations.LoadProgramCopiesOrRejects := by
  refine fun s bytes => ⟨fun running fresh len inv => ?_, fun running fresh len => ?_, fun h => ?_⟩
  · refine ⟨_, loadProgram_ok (loadAccepted_iff.mpr ⟨running, fresh⟩) len, rfl,
      ⟨?_, inv.pcBound, inv.slotBound, inv.statusRecord⟩, fun k hk => ?_, fun a ha => ?_⟩
    · exact memSetBytes_wf inv.memCanonical (by omega)
    · exact memByte_memSetBytes inv.memCanonical (by omega) hk
    · exact memByte_memSetBytes_other ha
  · rw [loadProgram, if_pos (loadAccepted_iff.mpr ⟨running, fresh⟩), if_pos len, State.rejectLoad]
  · rw [loadProgram, if_neg fun ok => ?_]
    obtain ⟨running, fresh⟩ := loadAccepted_iff.mp ok
    rcases h with h | h
    · exact h running
    · cases fresh.symm.trans h

/-- Settles O55: a clean entry is the accepted load of O54 into a construction, which only changes memory. -/
theorem cleanEntryState : Obligations.CleanEntryState := by
  intro q font program s h
  obtain ⟨ok, reject, -⟩ := loadProgramCopiesOrRejects (State.construct q font) program
  by_cases len : program.length ≤ 3584
  · obtain ⟨t, e, rest, inv, placed, -⟩ := ok rfl rfl len (inv_construct q font)
    obtain rfl : t = s := by
      rw [CleanEntry, e] at h
      injection h with h
      exact congrArg Prod.snd h
    exact ⟨congrArg State.status rest, congrArg State.fault rest, congrArg State.started rest,
      congrArg State.redraw rest, congrArg State.pc rest,
      fun r => (State.getV_congr (congrArg State.v rest :) r).trans (construct_getV q font r),
      congrArg State.quirks rest, len, placed, inv⟩
  · rw [CleanEntry, reject rfl rfl (Nat.lt_of_not_le len)] at h
    cases h

/-- Switch k of the table of R45 is bit k of the read-out. -/
theorem quirks_bits (q : Quirks) :
    q.bits.getLsbD 0 = q.vfReset ∧ q.bits.getLsbD 1 = q.indexIncrement ∧ q.bits.getLsbD 2 = q.shiftUsesVx ∧
      q.bits.getLsbD 3 = q.jumpUsesVx ∧ q.bits.getLsbD 4 = q.clipping ∧ q.bits.getLsbD 5 = q.displayWait := by
  obtain ⟨a, b, c, d, e, f⟩ := q
  revert a b c d e f
  decide

/-- Pixel (x, y) is element y * 64 + x of the read-out (R41). -/
theorem fbReadout_getElem? (fb : Framebuffer) {x y : Nat} (hx : x < 64) (hy : y < 32) :
    (fbReadout fb)[y * 64 + x]? = some (pixel fb x y) := by
  rw [fbReadout, List.getElem?_map, List.getElem?_range (show y * 64 + x < 64 * 32 by omega), Option.map_some,
    show (y * 64 + x) % 64 = x by omega, show (y * 64 + x) / 64 = y by omega]

theorem fbReadout_length (fb : Framebuffer) : (fbReadout fb).length = 2048 := by
  rw [fbReadout, List.length_map, List.length_range]; rfl

/-- Settles O56: each read is a field of the port, and peek's bound is the size of memory. -/
theorem hostReadsWithoutSideEffect : Obligations.HostReadsWithoutSideEffect := by
  refine fun s => ⟨fun a ha => ?_, fun a ha => ?_, ?_, fun x y hx hy => ?_,
    quirks_bits s.quirks, ⟨rfl, rfl, rfl, rfl, rfl, rfl, rfl, rfl, rfl, rfl, rfl⟩, rfl⟩
  · rw [peek, if_pos (show a < 4096 by omega)]
  · rw [peek, if_neg (show ¬ a < 4096 by omega)]
  · rw [readPort, fbReadout_length]
  · rw [readPort, fbReadout_getElem? s.fb hx hy]

end Sys2Proof.Machine
end
